-- ==== Sys2Proof/Word.lean ====
section
/-! DEFINITION. The widths of AQM-FSD (00_scope.md R5, R6): every value is an unsigned bit vector. -/

namespace Sys2Proof

/-- A data byte, 8 bits (R5). -/
abbrev Byte := BitVec 8

/-- A 16-bit value: `frameLen`, `calc`, `rxCsum`, a Reading field (R5). -/
abbrev Half := BitVec 16

/-- The width of `index`, 5 bits (R5, `INDEX_W`). -/
abbrev Index := BitVec 5

/-- A step word `W`, 13 bits (30_encoding.md R70). -/
abbrev StepWord := BitVec 13

end Sys2Proof
end

