-- ==== Sys2Proof/Config.lean ====
section
/-! DEFINITION. The hard-wired constants of 00_scope.md R4. The spec leaves no value open (92_eei_decisions.md:
no point is left `OPEN`), so there is no free value here. -/

namespace Sys2Proof.Config

/-- `MAGIC0`, the first header byte (R4). -/
def magic0 : Byte := 0x42

/-- `MAGIC1`, the second header byte (R4). -/
def magic1 : Byte := 0x4D

/-- `LEN_SHORT` (R4): the short variant's length field. -/
def lenShort : Half := 20

/-- `LEN_EXT` (R4): the extended variant's length field. -/
def lenExt : Half := 28

/-- `PAYLOAD_CAP` (R4): bytes held in the payload buffer. Also the size in `State.buf`'s type. -/
abbrev payloadCap : Nat := 24

/-- `NFIELDS` (R4): 16-bit output fields. Also the size in `State.rd`'s type. -/
abbrev nFields : Nat := 8

/-- `FIELD_OFFSETS` (R4): the buffer offset of each field's high byte. -/
def fieldOffsets : Vector Nat nFields := #v[0, 2, 4, 6, 8, 10, 20, 22]

end Sys2Proof.Config
end

