-- ==== Sys2Proof/Syntax.lean ====
section
/-! DEFINITION. The 15 operations of AQM-FSD (00_scope.md R9, 30_encoding.md R78), one constructor per row of
opcode_table.json. The operand `d` is `in_data`, the only field of the step word that a row leaves to the
stream; `H1_MATCH` and `H2_MATCH` fix it. Everything else an operation reads is a register. -/

namespace Sys2Proof

/-- One operation of the block: what a single step performs (R78). -/
inductive Instr where
  /-- `RESET`, R101. -/
  | reset
  /-- `IDLE`, R102. -/
  | idle
  /-- `H1_MATCH`, R111: `d` is `0x42`. -/
  | h1Match
  /-- `H1_DISCARD`, R112. -/
  | h1Discard (d : Byte)
  /-- `H2_MATCH`, R113: `d` is `0x4D`. -/
  | h2Match
  /-- `H2_RESYNC`, R114. -/
  | h2Resync (d : Byte)
  /-- `LEN_HI`, R115. -/
  | lenHi (d : Byte)
  /-- `LEN_LO_OK`, R116. -/
  | lenLoOk (d : Byte)
  /-- `LEN_LO_BAD`, R117. -/
  | lenLoBad (d : Byte)
  /-- `PAYLOAD_STORE`, R130. -/
  | payloadStore (d : Byte)
  /-- `PAYLOAD_SKIP`, R131. -/
  | payloadSkip (d : Byte)
  /-- `CSUM_HI`, R132. -/
  | csumHi (d : Byte)
  /-- `CSUM_LO_OK`, R133. -/
  | csumLoOk (d : Byte)
  /-- `CSUM_LO_BAD`, R134. -/
  | csumLoBad (d : Byte)
  /-- `PHASE_INVALID`, R103 (model only). -/
  | phaseInvalid (d : Byte)
  deriving DecidableEq, Repr

end Sys2Proof
end

