-- ==== Sys2Proof/WellFormed.lean ====
section
/-! DEFINITION. Which operations some step word and pre-step state can select (30_encoding.md R78): the part of a
row's condition that speaks of the operand byte alone. -/

namespace Sys2Proof

/-- `H1_DISCARD` is for a byte other than `0x42` and `H2_RESYNC` for one other than `0x4D` (R78 rows 4 and 6).
`LEN_LO_OK` is for a low byte that some high byte completes to a valid length: `0x14` or `0x1C` (R116, corner
cases). `LEN_LO_BAD` takes any byte, since a non-zero high byte makes every length invalid (R75). -/
def Instr.wellFormed : Instr → Bool
  | .reset => true
  | .idle => true
  | .h1Match => true
  | .h1Discard d => d != Config.magic0
  | .h2Match => true
  | .h2Resync d => d != Config.magic1
  | .lenHi _ => true
  | .lenLoOk d => d == Config.lenShort.setWidth 8 || d == Config.lenExt.setWidth 8
  | .lenLoBad _ => true
  | .payloadStore _ => true
  | .payloadSkip _ => true
  | .csumHi _ => true
  | .csumLoOk _ => true
  | .csumLoBad _ => true
  | .phaseInvalid _ => true

end Sys2Proof
end

