-- ==== Sys2Proof/Decode.lean ====
section
/-! DEFINITION. From the step word and the pre-step registers to the operation (30_encoding.md R70, R71, R78), and
the encoder. The byte-order and extension helpers stand here too, since the conditions of R78 use them. -/

namespace Sys2Proof

/-! ### Byte order and extension -/

/-- `{h, l}`: the earlier byte is the more significant one (20_memory.md R50). -/
def bigEndian (h l : Byte) : Half := h ++ l

/-- `zext_16(b)` (00_scope.md R6). -/
def zext16 (b : Byte) : Half := b.setWidth 16

/-- `v[15:8]`. -/
def highByte (v : Half) : Byte := v.extractLsb' 8 8

/-! ### Operands assembled from a register and the byte offered (30_encoding.md R75) -/

/-- `{frameLen[15:8], b}`: the length once its low byte is known (R116). -/
def lengthWith (frameLen : Half) (b : Byte) : Half := bigEndian (highByte frameLen) b

/-- `{rxCsum[15:8], b}`: the received checksum once its low byte is known (R133). -/
def checksumWith (rxCsum : Half) (b : Byte) : Half := bigEndian (highByte rxCsum) b

/-- `valid_len(n)`: exactly 20 or 28, over all 16 bits (41_header_length.md R110). -/
def validLen (n : Half) : Bool := n == Config.lenShort || n == Config.lenExt

/-- The payload offset `o = index - 4`, a 5-bit unsigned difference (20_memory.md R53). -/
def payloadOffset (index : Index) : Nat := (index - 4).toNat

/-! ### Phase decode (30_encoding.md R71) -/

/-- The phases of R71, with the names of the source's section 9; `none` is code 7. `Payload`'s offset is
`payloadOffset index`. -/
inductive Phase where
  | seekHeader1 | seekHeader2 | lenHigh | lenLow | payload | checksumHigh | checksumLow | none
  deriving DecidableEq, Repr

/-- The 3-bit code of a phase (R71). -/
def Phase.code : Phase → BitVec 3
  | .seekHeader1 => 0
  | .seekHeader2 => 1
  | .lenHigh => 2
  | .lenLow => 3
  | .payload => 4
  | .checksumHigh => 5
  | .checksumLow => 6
  | .none => 7

/-- `phase(S)` as a function of `index` and `frameLen` (R71); sums such as `frameLen + 1` are exact. -/
def phaseOf (index : Index) (frameLen : Half) : Phase :=
  if index.toNat = 0 then .seekHeader1
  else if index.toNat = 1 then .seekHeader2
  else if index.toNat = 2 then .lenHigh
  else if index.toNat = 3 then .lenLow
  else if validLen frameLen = false then .none
  else if index.toNat ≤ frameLen.toNat + 1 then .payload
  else if index.toNat = frameLen.toNat + 2 then .checksumHigh
  else if index.toNat = frameLen.toNat + 3 then .checksumLow
  else .none

/-! ### The step word (30_encoding.md R70) -/

/-- `W = {rst, in_valid, phase, in_data}` (R70). -/
def stepWord (r v : Bool) (p : BitVec 3) (d : Byte) : StepWord := BitVec.ofBool r ++ BitVec.ofBool v ++ p ++ d

/-- `W[12]`, `rst`. -/
def wordRst (w : StepWord) : Bool := w.getLsbD 12

/-- `W[11]`, `in_valid`. -/
def wordValid (w : StepWord) : Bool := w.getLsbD 11

/-- `W[10:8]`, the phase code. -/
def wordPhase (w : StepWord) : BitVec 3 := w.extractLsb' 8 3

/-- `W[7:0]`, `in_data`. -/
def wordData (w : StepWord) : Byte := w.extractLsb' 0 8

/-! ### The operation map (30_encoding.md R78) -/

/-- The pre-step registers that the conditions of R78 read; `calcSum` is the spec's `calc`. -/
structure DecodeContext where
  index : Index
  frameLen : Half
  calcSum : Half
  rxCsum : Half
  deriving DecidableEq, Repr

/-- A row of the operation map: opcode_table.json's mnemonic, match and mask, and R78's condition over the
pre-step registers and `d`. -/
structure Row where
  mnemonic : String
  pattern : StepWord
  mask : StepWord
  cond : DecodeContext → Byte → Bool
  build : Byte → Instr

/-- A row matches a step word: the word agrees with the pattern on the mask's bits and the condition holds. -/
def Row.selects (row : Row) (c : DecodeContext) (w : StepWord) : Bool :=
  w &&& row.mask == row.pattern && row.cond c (wordData w)

/-- Rows 1 to 9 of R78: control, header and length. -/
def headRows : List Row :=
  [ ⟨"RESET", 0x1000, 0x1000, fun _ _ => true, fun _ => .reset⟩,
    ⟨"IDLE", 0x0000, 0x1800, fun _ _ => true, fun _ => .idle⟩,
    ⟨"H1_MATCH", 0x0842, 0x1FFF, fun _ _ => true, fun _ => .h1Match⟩,
    ⟨"H1_DISCARD", 0x0800, 0x1F00, fun _ d => d != Config.magic0, .h1Discard⟩,
    ⟨"H2_MATCH", 0x094D, 0x1FFF, fun _ _ => true, fun _ => .h2Match⟩,
    ⟨"H2_RESYNC", 0x0900, 0x1F00, fun _ d => d != Config.magic1, .h2Resync⟩,
    ⟨"LEN_HI", 0x0A00, 0x1F00, fun _ _ => true, .lenHi⟩,
    ⟨"LEN_LO_OK", 0x0B00, 0x1F00, fun c d => validLen (lengthWith c.frameLen d), .lenLoOk⟩,
    ⟨"LEN_LO_BAD", 0x0B00, 0x1F00, fun c d => !validLen (lengthWith c.frameLen d), .lenLoBad⟩ ]

/-- Rows 10 to 15 of R78: payload, checksum and the invalid phase. -/
def tailRows : List Row :=
  [ ⟨"PAYLOAD_STORE", 0x0C00, 0x1F00, fun c _ => decide (payloadOffset c.index < Config.payloadCap), .payloadStore⟩,
    ⟨"PAYLOAD_SKIP", 0x0C00, 0x1F00, fun c _ => decide (Config.payloadCap ≤ payloadOffset c.index), .payloadSkip⟩,
    ⟨"CSUM_HI", 0x0D00, 0x1F00, fun _ _ => true, .csumHi⟩,
    ⟨"CSUM_LO_OK", 0x0E00, 0x1F00, fun c d => checksumWith c.rxCsum d == c.calcSum, .csumLoOk⟩,
    ⟨"CSUM_LO_BAD", 0x0E00, 0x1F00, fun c d => checksumWith c.rxCsum d != c.calcSum, .csumLoBad⟩,
    ⟨"PHASE_INVALID", 0x0F00, 0x1F00, fun _ _ => true, .phaseInvalid⟩ ]

/-- The operation map, in R78's order of priority. -/
def rows : List Row := headRows ++ tailRows

/-- Why a word is no step word. `notAStepWord`: it has a bit above bit 12 (R70). `noRow`: no row of R78 selects it;
Sys2Proof/Laws/Decode.lean proves that this never happens to a 13-bit word. -/
inductive DecodeReject where
  | notAStepWord
  | noRow
  deriving DecidableEq, Repr

/-- The operation of a step: the first row of R78 that matches the step word and whose condition holds over the
pre-step registers (R78, R100). -/
def decode (c : DecodeContext) (w : StepWord) : Except DecodeReject Instr :=
  match rows.find? (fun row => row.selects c w) with
  | some row => .ok (row.build (wordData w))
  | none => .error .noRow

/-- Decoding a number laid out as opcode_table.json numbers its bits: a bit above bit 12 is rejected by name. -/
def decodeNat (c : DecodeContext) (w : Nat) : Except DecodeReject Instr :=
  if w < 2 ^ 13 then decode c (BitVec.ofNat 13 w) else .error .notAStepWord

/-! ### The encoder -/

/-- The step word of an operation; don't-care bits are 0, as 95_test_vectors.md writes RESET and IDLE. -/
def encode : Instr → StepWord
  | .reset => stepWord true false 0 0
  | .idle => stepWord false false 0 0
  | .h1Match => stepWord false true Phase.seekHeader1.code Config.magic0
  | .h1Discard d => stepWord false true Phase.seekHeader1.code d
  | .h2Match => stepWord false true Phase.seekHeader2.code Config.magic1
  | .h2Resync d => stepWord false true Phase.seekHeader2.code d
  | .lenHi d => stepWord false true Phase.lenHigh.code d
  | .lenLoOk d => stepWord false true Phase.lenLow.code d
  | .lenLoBad d => stepWord false true Phase.lenLow.code d
  | .payloadStore d => stepWord false true Phase.payload.code d
  | .payloadSkip d => stepWord false true Phase.payload.code d
  | .csumHi d => stepWord false true Phase.checksumHigh.code d
  | .csumLoOk d => stepWord false true Phase.checksumLow.code d
  | .csumLoBad d => stepWord false true Phase.checksumLow.code d
  | .phaseInvalid d => stepWord false true Phase.none.code d

/-- The condition under which R78 gives a word to this operation and not to the row that shares its pattern. -/
def Instr.condition (c : DecodeContext) : Instr → Bool
  | .lenLoOk d => validLen (lengthWith c.frameLen d)
  | .lenLoBad d => !validLen (lengthWith c.frameLen d)
  | .payloadStore _ => decide (payloadOffset c.index < Config.payloadCap)
  | .payloadSkip _ => decide (Config.payloadCap ≤ payloadOffset c.index)
  | .csumLoOk d => checksumWith c.rxCsum d == c.calcSum
  | .csumLoBad d => checksumWith c.rxCsum d != c.calcSum
  | .reset => true
  | .idle => true
  | .h1Match => true
  | .h1Discard _ => true
  | .h2Match => true
  | .h2Resync _ => true
  | .lenHi _ => true
  | .csumHi _ => true
  | .phaseInvalid _ => true

/-! ### A table word by itself -/

/-- DESIGN CHOICE (log entry 5): registers that put the block into the phase of code `p`, for a table word that comes
without a state. They are the first state of that phase in a short frame; every other register is at its reset value. -/
def tableContext (p : BitVec 3) : DecodeContext :=
  match p.toNat with
  | 0 => ⟨0, 0, 0, 0⟩
  | 1 => ⟨1, 0, 0, 0⟩
  | 2 => ⟨2, 0, 0, 0⟩
  | 3 => ⟨3, 0, 0, 0⟩
  | 4 => ⟨4, 20, 0, 0⟩
  | 5 => ⟨22, 20, 0, 0⟩
  | 6 => ⟨23, 20, 0, 0⟩
  | _ => ⟨4, 0, 0, 0⟩

/-- The operation of a word of opcode_table.json, bit 0 its least significant bit, decoded in the registers of
`tableContext`. A row's condition is not in its bits: `0x0B00`, `0x0C00` and `0x0E00` each stand for two rows, and the
word's context decides between them (log entry 5). -/
def decodeTableWord (_nbits w : Nat) : Option Instr :=
  (decodeNat (tableContext (wordPhase (BitVec.ofNat 13 w))) w).toOption

end Sys2Proof
end

