-- ==== Sys2Proof/Machine/State.lean ====
section
/-! DEFINITION. The state vector of 10_state.md R20 with the reset values of R35, the reasons a step can stop, and
the model's own queue of inputs (log entry 1). Plain data throughout. -/

namespace Sys2Proof.Machine

/-- What the host drives on the input ports in one step (10_state.md R33). -/
structure StepInput where
  /-- Port `rst`. -/
  rst : Bool
  /-- Port `in_valid`. -/
  inValid : Bool
  /-- Port `in_data`; ignored when `in_valid = 0`. -/
  inData : Byte
  deriving DecidableEq, Repr

/-- The state of the block (R20: "No other state exists"), and the inputs the host will drive. -/
structure State where
  /-- Byte offset within the current frame, the sequencing register (R21). -/
  index : Index
  /-- Declared frame length (R22). -/
  frameLen : Half
  /-- Running additive checksum, the spec's `calc` (R23); `calc` is a word of Lean. -/
  calcSum : Half
  /-- Received checksum (R24). -/
  rxCsum : Half
  /-- Payload buffer (R25); an element per offset 0 to 23. -/
  buf : Vector Byte Config.payloadCap
  /-- Result flag: 0 waiting, 1 ok (R26, R77). -/
  status : BitVec 1
  /-- Diagnostic code of the last step (R27, R76). -/
  event : BitVec 3
  /-- The Reading: SP1, SP2, SP3, AE1, AE2, AE3, TEMP, HUM (R28). -/
  rd : Vector Half Config.nFields
  /-- The MODEL's own field, DESIGN CHOICE (log entry 1): what the host drives in the coming steps, the next one first. -/
  inputs : List StepInput
  deriving DecidableEq, Repr

/-- The state after a step with `rst = 1` (R35). The empty queue is the model's (log entries 1 and 3). -/
def State.reset : State where
  index := 0
  frameLen := 0x0000
  calcSum := 0x0000
  rxCsum := 0x0000
  buf := Vector.replicate Config.payloadCap 0x00
  status := 0
  event := 0
  rd := Vector.replicate Config.nFields 0x0000
  inputs := []

/-- Why the machine stops. -/
inductive Fault where
  /-- `fault PHASE_INVALID(S)` (R103), raised by `PHASE_INVALID` alone, with the state it was met in. Model only. Safe:
  the spec gives no transition there, and no state reachable from reset has phase 7 (R29, R207). -/
  | phaseInvalid (s : State)
  deriving DecidableEq, Repr

/-- Why the model gives a step no meaning. -/
inductive Refusal where
  /-- Raised by an arm of `exec` that has no meaning yet; no arm does. Safe. -/
  | notModelled (mnemonic : String)
  /-- Raised by `step` when the decoder rejects the step word. Safe, and it never happens: the rows of R78 cover every
  step word (Sys2Proof/Laws/Decode.lean). -/
  | undecoded (why : DecodeReject)
  deriving DecidableEq, Repr

/-- What a meaning answers. -/
abbrev Result := Host.Outcome State Fault Refusal

end Sys2Proof.Machine
end

