-- ==== Sys2Proof/Machine/Flags.lean ====
section
/-! DEFINITION. `status` and `event`: their encodings (30_encoding.md R76, R77) and the one write of both that every
operation makes (40_control_ops.md R100). The block has no other flag (10_state.md R26). -/

namespace Sys2Proof.Machine

/-- The event codes that some operation writes (R76). Code 7 is reserved and has no name (R80). -/
inductive Event where
  | idle | accept | hunt | badMagic2 | badLen | badCsum | frameOk
  deriving DecidableEq, Repr

/-- The 3-bit code of an event (R76). -/
def Event.code : Event → BitVec 3
  | .idle => 0
  | .accept => 1
  | .hunt => 2
  | .badMagic2 => 3
  | .badLen => 4
  | .badCsum => 5
  | .frameOk => 6

/-- Reading an `event` code; 7 is impossible, so a reader gets no event for it (R80). -/
def Event.ofCode (c : BitVec 3) : Option Event :=
  match c.toNat with
  | 0 => some .idle
  | 1 => some .accept
  | 2 => some .hunt
  | 3 => some .badMagic2
  | 4 => some .badLen
  | 5 => some .badCsum
  | 6 => some .frameOk
  | _ => none

/-- `status = 0` (R77). -/
def waiting : BitVec 1 := 0

/-- `status = 1` (R77). -/
def ok : BitVec 1 := 1

/-- `status <- st; event <- e`. -/
def State.setFlags (s : State) (st : BitVec 1) (e : Event) : State :=
  { s with status := st, event := e.code }

end Sys2Proof.Machine
end

