-- ==== Sys2Proof/Machine/Operands.lean ====
section
/-! DEFINITION. What a step reads: the input ports, the registers the decoder looks at, and the field extractor
(10_state.md R33, 30_encoding.md R70, 43_field_decoder.md R150). -/

namespace Sys2Proof.Machine

/-- `rst = 0`, `in_valid = 0`: the host offers nothing (60_exceptions.md R212). -/
def StepInput.none : StepInput := ⟨false, false, 0⟩

/-- The inputs of the next step. DESIGN CHOICE (log entry 2): past the end of the queue the host offers nothing. -/
def State.nextInput (s : State) : StepInput := s.inputs.headD StepInput.none

/-- The phase of the block (R71). -/
def State.phase (s : State) : Phase := phaseOf s.index s.frameLen

/-- The registers the conditions of R78 read. -/
def State.context (s : State) : DecodeContext := ⟨s.index, s.frameLen, s.calcSum, s.rxCsum⟩

/-- The step word that the inputs `x` form with the phase of the block (R70). -/
def State.wordFor (s : State) (x : StepInput) : StepWord := stepWord x.rst x.inValid s.phase.code x.inData

/-- `decode(buf)`, the fixed-format field extractor (R150 to R152). Offsets 12 to 19 feed no field (R153). -/
def decodeReading (buf : Vector Byte Config.payloadCap) : Vector Half Config.nFields :=
  #v[bigEndian buf[0] buf[1],
     bigEndian buf[2] buf[3],
     bigEndian buf[4] buf[5],
     bigEndian buf[6] buf[7],
     bigEndian buf[8] buf[9],
     bigEndian buf[10] buf[11],
     bigEndian buf[20] buf[21],
     bigEndian buf[22] buf[23]]

end Sys2Proof.Machine
end

