-- ==== Sys2Proof/Machine/Ops.lean ====
section
/-! DEFINITION. The register and buffer operations the meanings share. The block has no trap: the resync stands in for
taking an exception, and since it saves nothing there is no return from it (60_exceptions.md R204, R205). -/

namespace Sys2Proof.Machine

/-- One step's input is taken from the queue: each is consumed once, in order (20_memory.md R60). -/
def State.consumeInput (s : State) : State := { s with inputs := s.inputs.tail }

/-- `calc <- (calc + zext_16(b)) mod 2^16` (10_state.md R23). -/
def State.accumulate (s : State) (b : Byte) : State := { s with calcSum := s.calcSum + zext16 b }

/-- `calc <- v`. -/
def State.loadCalc (s : State) (v : Half) : State := { s with calcSum := v }

/-- `index <- i`. -/
def State.setIndex (s : State) (i : Index) : State := { s with index := i }

/-- `index <- index + 1`, in 5 bits (10_state.md R21). -/
def State.advance (s : State) : State := { s with index := s.index + 1 }

/-- `frameLen <- n`. -/
def State.setFrameLen (s : State) (n : Half) : State := { s with frameLen := n }

/-- `rxCsum <- c`. -/
def State.setRxCsum (s : State) (c : Half) : State := { s with rxCsum := c }

/-- `buf[k]`: the read of one byte of the payload buffer. -/
def State.bufByte (s : State) (k : Fin Config.payloadCap) : Byte := s.buf[k]

/-- `buf[o] <- b`; an offset of 24 or more is not addressable and stores nothing (20_memory.md R53, R54). -/
def State.storeByte (s : State) (o : Nat) (b : Byte) : State := { s with buf := s.buf.setIfInBounds o b }

/-- The buffer offset a payload byte goes to (20_memory.md R53). -/
def State.storeOffset (s : State) : Nat := payloadOffset s.index

/-- `rd[0..7] <- decode(buf)`: all eight fields at once (20_memory.md R58). -/
def State.writeReading (s : State) : State := { s with rd := decodeReading s.buf }

/-- The byte is taken into the frame: `status <- 0; event <- EV_ACCEPT`. -/
def State.accept (s : State) : State := s.setFlags waiting .accept

/-- The resync of R204: `index <- 0`, `status <- 0` and the event that names the error. Nothing is saved. -/
def State.resync (s : State) (e : Event) : State := (s.setIndex 0).setFlags waiting e

/-- Every register of R20 to its value in R35; the host's queue is no register. -/
def State.clear (s : State) : State where
  index := 0
  frameLen := 0x0000
  calcSum := 0x0000
  rxCsum := 0x0000
  buf := Vector.replicate Config.payloadCap 0x00
  status := waiting
  event := Event.idle.code
  rd := Vector.replicate Config.nFields 0x0000
  inputs := s.inputs

end Sys2Proof.Machine
end

