-- ==== Sys2Proof/Machine/Control.lean ====
section
/-! DEFINITION. The control operations (40_control_ops.md R101 to R103). A meaning is the pseudocode of its rule, which
the step applies only when R78 selects the operation (log entry 4). -/

namespace Sys2Proof.Machine

/-- `RESET` (R101). -/
def execReset (s : State) : Result := .next s.clear

/-- `IDLE` (R102): only `status` and `event` are written. -/
def execIdle (s : State) : Result := .next (s.setFlags waiting .idle)

/-- `PHASE_INVALID` (R103): `fault PHASE_INVALID(S)`, no next state. -/
def execPhaseInvalid (_d : Byte) (s : State) : Result := .fault (.phaseInvalid s)

end Sys2Proof.Machine
end

