-- ==== Sys2Proof/Machine/Header.lean ====
section
/-! DEFINITION. The header and length operations (41_header_length.md R111 to R117), frame bytes 0 to 3. A meaning is
the pseudocode of its rule, which the step applies only when R78 selects the operation (log entry 4). -/

namespace Sys2Proof.Machine

/-- `H1_MATCH` (R111): the old sum is dropped. -/
def execH1Match (s : State) : Result := .next ((s.loadCalc (zext16 Config.magic0)).setIndex 1).accept

/-- `H1_DISCARD` (R112): `index` stays as it is, only the flags are written. -/
def execH1Discard (_d : Byte) (s : State) : Result := .next (s.setFlags waiting .hunt)

/-- `H2_MATCH` (R113). -/
def execH2Match (s : State) : Result := .next ((s.accumulate Config.magic1).setIndex 2).accept

/-- `H2_RESYNC` (R114): the byte is not examined again as a first header byte. -/
def execH2Resync (_d : Byte) (s : State) : Result := .next (s.resync .badMagic2)

/-- `LEN_HI` (R115). -/
def execLenHi (d : Byte) (s : State) : Result :=
  .next (((s.setFrameLen (bigEndian d 0x00)).accumulate d).setIndex 3).accept

/-- `LEN_LO_OK` (R116). -/
def execLenLoOk (d : Byte) (s : State) : Result :=
  .next (((s.setFrameLen (lengthWith s.frameLen d)).accumulate d).setIndex 4).accept

/-- `LEN_LO_BAD` (R117): the rejected length is kept and `calc` is not changed. -/
def execLenLoBad (d : Byte) (s : State) : Result :=
  .next ((s.setFrameLen (lengthWith s.frameLen d)).resync .badLen)

end Sys2Proof.Machine
end

