-- ==== Sys2Proof/Machine/Payload.lean ====
section
/-! DEFINITION. The payload and checksum operations (42_payload_checksum.md R130 to R134), frame bytes 4 to
`frameLen + 3`. A meaning is the pseudocode of its rule, which the step applies only when R78 selects the operation
(log entry 4). -/

namespace Sys2Proof.Machine

/-- `PAYLOAD_STORE` (R130). -/
def execPayloadStore (d : Byte) (s : State) : Result :=
  .next ((s.accumulate d).storeByte s.storeOffset d).advance.accept

/-- `PAYLOAD_SKIP` (R131): accumulated, not stored. -/
def execPayloadSkip (d : Byte) (s : State) : Result := .next (s.accumulate d).advance.accept

/-- `CSUM_HI` (R132): the checksum bytes are not added to `calc`. -/
def execCsumHi (d : Byte) (s : State) : Result := .next (s.setRxCsum (bigEndian d 0x00)).advance.accept

/-- `CSUM_LO_OK` (R133): the one operation that writes the Reading. -/
def execCsumLoOk (d : Byte) (s : State) : Result :=
  .next (((s.setRxCsum (checksumWith s.rxCsum d)).writeReading.setIndex 0).setFlags ok .frameOk)

/-- `CSUM_LO_BAD` (R134): the Reading keeps its value and `buf` the bytes of the failed frame. -/
def execCsumLoBad (d : Byte) (s : State) : Result :=
  .next ((s.setRxCsum (checksumWith s.rxCsum d)).resync .badCsum)

end Sys2Proof.Machine
end

