-- ==== Sys2Proof/Machine/Dispatch.lean ====
section
/-! DEFINITION. `apply(op, S, in_data)` of 40_control_ops.md R100: one arm per operation. -/

namespace Sys2Proof.Machine

def exec (i : Instr) (s : State) : Host.Outcome State Fault Refusal :=
  match i with
  | .reset => Sys2Proof.Machine.execReset s
  | .idle => Sys2Proof.Machine.execIdle s
  | .h1Match => Sys2Proof.Machine.execH1Match s
  | .h1Discard d => Sys2Proof.Machine.execH1Discard d s
  | .h2Match => Sys2Proof.Machine.execH2Match s
  | .h2Resync d => Sys2Proof.Machine.execH2Resync d s
  | .lenHi d => Sys2Proof.Machine.execLenHi d s
  | .lenLoOk d => Sys2Proof.Machine.execLenLoOk d s
  | .lenLoBad d => Sys2Proof.Machine.execLenLoBad d s
  | .payloadStore d => Sys2Proof.Machine.execPayloadStore d s
  | .payloadSkip d => Sys2Proof.Machine.execPayloadSkip d s
  | .csumHi d => Sys2Proof.Machine.execCsumHi d s
  | .csumLoOk d => Sys2Proof.Machine.execCsumLoOk d s
  | .csumLoBad d => Sys2Proof.Machine.execCsumLoBad d s
  | .phaseInvalid d => Sys2Proof.Machine.execPhaseInvalid d s

end Sys2Proof.Machine
end

