-- ==== Sys2Proof/Machine/Fetch.lean ====
section
/-! DEFINITION. Where a step gets its operation from, for Step.lean: the input queue and the phase registers stand
where a processor has memory and a program counter (20_memory.md R62). -/

namespace Sys2Proof.Machine

/-- The operation R78 picks for the inputs `x` in the state `s`. -/
def State.operationFor (s : State) (x : StepInput) : Except DecodeReject Instr := decode s.context (s.wordFor x)

/-- The operation of the next step. -/
def State.operation (s : State) : Except DecodeReject Instr := s.operationFor s.nextInput

/-- The inputs a step word stands for. -/
def inputOf (w : StepWord) : StepInput := ⟨wordRst w, wordValid w, wordData w⟩

/-- The registers that put the block into the phase of code `p` and decide its row as `tableContext` does; registers
that R78 does not read in that phase keep their values (log entry 5). -/
def State.enterPhase (s : State) (p : BitVec 3) : State :=
  { s with
    index := (tableContext p).index
    frameLen := if p.toNat < 3 then s.frameLen else (tableContext p).frameLen
    calcSum := if p.toNat = 6 then (tableContext p).calcSum else s.calcSum
    rxCsum := if p.toNat = 6 then (tableContext p).rxCsum else s.rxCsum }

/-- The step word's inputs come next; when it offers a byte, the block stands in the word's phase. -/
def State.placeWord (s : State) (w : StepWord) : State :=
  let s := { s with inputs := inputOf w :: s.inputs }
  if !wordRst w && wordValid w then s.enterPhase (wordPhase w) else s

end Sys2Proof.Machine
end

