-- ==== Sys2Proof/Machine/Apply.lean ====
section
/-! DEFINITION. `step(S, rst, in_valid, in_data)` of 40_control_ops.md R100, as a function of the inputs and the state. -/

namespace Sys2Proof.Machine

/-- R100: form the step word, pick the operation, apply it. -/
def stepWith (x : StepInput) (s : State) : Result :=
  match s.operationFor x with
  | .ok i => exec i s
  | .error why => .refused (.undecoded why)

end Sys2Proof.Machine
end

