-- ==== Sys2Proof/Machine/Step.lean ====
section
/-! DEFINITION. The step function of 40_control_ops.md R100. -/

namespace Sys2Proof.Machine

/-- One step of R100 on the inputs at the head of the queue, which are consumed (log entry 1). -/
def step (s : State) : Host.Outcome State Fault Refusal := stepWith s.nextInput s.consumeInput

/-- A word of opcode_table.json as the next step's operation (log entries 3 and 5); a number that is no 13-bit step word
places nothing. -/
def State.withFetchWord (s : State) (_nbits w : Nat) : State :=
  if w < 2 ^ 13 then s.placeWord (BitVec.ofNat 13 w) else s

end Sys2Proof.Machine
end

