-- ==== Sys2Proof/Machine/Ports.lean ====
section
/-! DEFINITION. The output ports (10_state.md R34). A Moore machine: each output is the value of a register, and reading
one changes nothing (00_scope.md R7, 20_memory.md R59). -/

namespace Sys2Proof.Machine

/-- The output ports of R34. -/
structure Outputs where
  ok : BitVec 1
  event : BitVec 3
  rdSp1 : Half
  rdSp2 : Half
  rdSp3 : Half
  rdAe1 : Half
  rdAe2 : Half
  rdAe3 : Half
  rdTemp : Half
  rdHum : Half
  inReady : BitVec 1
  deriving DecidableEq, Repr

/-- The values on the output ports (R34); `in_ready` is the constant 1 (R33). -/
def State.outputs (s : State) : Outputs where
  ok := s.status
  event := s.event
  rdSp1 := s.rd[0]
  rdSp2 := s.rd[1]
  rdSp3 := s.rd[2]
  rdAe1 := s.rd[3]
  rdAe2 := s.rd[4]
  rdAe3 := s.rd[5]
  rdTemp := s.rd[6]
  rdHum := s.rd[7]
  inReady := 1

end Sys2Proof.Machine
end

