-- ==== Sys2Proof/Machine/Stream.lean ====
section
/-! DEFINITION. The stream notation of 30_encoding.md R83 as lists of step inputs, and runs over them. -/

namespace Sys2Proof.Machine

/-- `reset`: one step with `rst = 1`. -/
def StepInput.reset : StepInput := ⟨true, false, 0⟩

/-- `idle`: one step with `rst = 0` and `in_valid = 0`. -/
def StepInput.idle : StepInput := StepInput.none

/-- One step that offers the byte `b`. -/
def StepInput.byte (b : Byte) : StepInput := ⟨false, true, b⟩

/-- A step in which no byte is offered and no reset is asked for, whatever is on `in_data`. -/
def StepInput.isIdle (x : StepInput) : Bool := !x.rst && !x.inValid

/-- `idle*N`. -/
def idles (n : Nat) : List StepInput := List.replicate n StepInput.idle

/-- `feed B0 B1 ... Bk`. -/
def feed (bs : List Byte) : List StepInput := bs.map StepInput.byte

/-- The 16-bit sum of a list of bytes (30_encoding.md R74). -/
def byteSum (bs : List Byte) : Half := bs.foldl (fun acc b => acc + zext16 b) 0

/-- The bytes of a frame before its checksum, with payload `p`: `LL = len(P) + 2` (R72, R83). -/
def frameBody (p : List Byte) : List Byte :=
  Config.magic0 :: Config.magic1 :: 0x00 :: BitVec.ofNat 8 (p.length + 2) :: p

/-- A frame with payload `p` and `c` in its checksum field, most significant byte first. -/
def frameWith (p : List Byte) (c : Half) : List Byte := frameBody p ++ [highByte c, c.setWidth 8]

/-- `frame(P)`: the frame with its own sum in the checksum field; R83 gives it for 18 or 26 payload bytes. -/
def frame (p : List Byte) : List Byte := frameWith p (byteSum (frameBody p))

/-- The payload buffer after a frame with payload `p`: byte `k` of the payload at `buf[k]` for `k < 24`, the old byte where
the payload has none (10_state.md R25, 20_memory.md R53). -/
def captured (buf : Vector Byte Config.payloadCap) (p : List Byte) : Vector Byte Config.payloadCap :=
  Vector.ofFn fun k => p.getD k.val buf[k]

/-- The steps of a stream, one per input, stopping at the first fault or refusal. -/
def runWith : List StepInput → State → Result
  | [], s => .next s
  | x :: xs, s =>
    match stepWith x s with
    | .next t => runWith xs t
    | .fault r => .fault r
    | .refused r => .refused r

/-- The operations of a stream's steps, up to the first fault or refusal. -/
def operations : List StepInput → State → List Instr
  | [], _ => []
  | x :: xs, s =>
    match s.operationFor x, stepWith x s with
    | .ok i, .next t => i :: operations xs t
    | .ok i, .fault _ => [i]
    | .ok i, .refused _ => [i]
    | .error _, _ => []

/-- The event codes that a stream's steps leave, one per step that completes. -/
def events : List StepInput → State → List (BitVec 3)
  | [], _ => []
  | x :: xs, s =>
    match stepWith x s with
    | .next t => t.event :: events xs t
    | .fault _ => []
    | .refused _ => []

/-- `k` steps on the queue of inputs, stopping at the first fault or refusal. -/
def run : Nat → State → Result
  | 0, s => .next s
  | k + 1, s =>
    match step s with
    | .next t => run k t
    | .fault r => .fault r
    | .refused r => .refused r

end Sys2Proof.Machine
end

