-- ==== Sys2Proof/Safety.lean ====
section
/-! DEFINITION. What a safe run keeps, in the terms the claims use: the index invariant of 10_state.md R29, the flag
rules of R26 and 30_encoding.md R77 and R80, and the bound behind 42_payload_checksum.md R136. Each is a decidable
proposition over one state; sums and comparisons are exact. -/

namespace Sys2Proof.Machine

/-- R29 (a): `index <= 3`, or a valid length is held and `4 <= index <= frameLen + 3`. -/
abbrev State.indexInv (s : State) : Prop :=
  s.index.toNat ≤ 3 ∨
    ((s.frameLen = 20 ∨ s.frameLen = 28) ∧ 4 ≤ s.index.toNat ∧ s.index.toNat ≤ s.frameLen.toNat + 3)

/-- R29 (b): `index < frameLen + 4`. -/
abbrev State.insideFrame (s : State) : Prop := s.index.toNat < s.frameLen.toNat + 4

/-- R77 and R80: `status = 1` exactly when `event = 6`, and `event` is never 7. -/
abbrev State.flagsInv (s : State) : Prop := (s.status = 1 ↔ s.event = 6) ∧ s.event ≠ 7

/-- The running sum at each frame byte (R111, R113, R115, R116, R130 to R132): exact through the header, where
`0x8F = 0x42 + 0x4D`, and from then on at most what the header, the length byte and `0xFF` for each payload byte so far
add up to. -/
abbrev State.sumInv (s : State) : Prop :=
  (s.index.toNat = 1 → s.calcSum = 0x0042) ∧
  (s.index.toNat = 2 → s.calcSum = 0x008F) ∧
  (s.index.toNat = 3 → s.frameLen.toNat % 256 = 0 ∧ s.calcSum.toNat = 0x8F + s.frameLen.toNat / 256) ∧
  (4 ≤ s.index.toNat →
    s.calcSum.toNat ≤ 0x8F + s.frameLen.toNat + 255 * (min s.index.toNat (s.frameLen.toNat + 2) - 4))

/-- What every state reachable from reset satisfies. -/
abbrev State.inv (s : State) : Prop := s.indexInv ∧ s.insideFrame ∧ s.flagsInv ∧ s.sumInv

/-- A step is safe when it completes: it neither faults nor is refused. -/
abbrev State.safeStep (s : State) : Prop := ∃ t, step s = .next t

end Sys2Proof.Machine
end

