-- ==== Sys2Proof/Certificates/Slice0/Obligations.lean ====
section
/-! DEFINITION. The statements for the provers. Each `Obligations.<Name>` formalises the rule of spec/ its docstring
names. Where a rule writes `{v[15:8], b}`, `{b, 0x00}` or `zext_16(b)` the statement writes the bits out and calls no
helper of the model. In the per-operation statements the first clause is the operation's whole effect, so its frame
too; the second says exactly when R78 selects it; the third that the step of R100 then does just that.

`stepWith x s` is the spec's `step(S, rst, in_valid, in_data)`; it reads no queue. The queue `inputs`, from which `step`
takes `x`, is the model's own (log entry 1), and the statements about `step` and `run` rest on it. -/

open Sys2Proof Sys2Proof.Machine

/-! ### Control operations (40_control_ops.md) -/

/-- R101, R35, R230: `RESET`, selected by `rst = 1` whatever else is on the ports. -/
def Obligations.ResetRestoresResetValues : Prop :=
  ∀ (s : State) (x : StepInput),
    exec .reset s = .next
      { index := 0, frameLen := 0x0000, calcSum := 0x0000, rxCsum := 0x0000, buf := Vector.replicate 24 0x00,
        status := 0, event := 0, rd := Vector.replicate 8 0x0000, inputs := s.inputs } ∧
    (s.operationFor x = .ok .reset ↔ x.rst = true) ∧
    (x.rst = true → stepWith x s = .next { State.reset with inputs := s.inputs })

/-- R102: `IDLE`, selected by `rst = 0` and `in_valid = 0` in any phase, writes only the two flags, and so does any
number of `IDLE` steps. -/
def Obligations.IdleWritesOnlyFlags : Prop :=
  ∀ (s : State) (x : StepInput),
    exec .idle s = .next { s with status := 0, event := 0 } ∧
    (s.operationFor x = .ok .idle ↔ x.rst = false ∧ x.inValid = false) ∧
    (x.rst = false → x.inValid = false → stepWith x s = .next { s with status := 0, event := 0 }) ∧
    ∀ n : Nat, runWith (idles (n + 1)) s = .next { s with status := 0, event := 0 }

/-- R103: `PHASE_INVALID`, a byte offered outside the index range, is the model-only fault; no state is written. -/
def Obligations.PhaseInvalidFaults : Prop :=
  ∀ (s : State) (x : StepInput) (d : Byte),
    exec (.phaseInvalid d) s = .fault (.phaseInvalid s) ∧
    (s.operationFor x = .ok (.phaseInvalid d) ↔
      x = .byte d ∧ 4 ≤ s.index.toNat ∧
        (¬(s.frameLen = 20 ∨ s.frameLen = 28) ∨ s.frameLen.toNat + 3 < s.index.toNat)) ∧
    (s.operationFor x = .ok (.phaseInvalid d) → stepWith x s = .fault (.phaseInvalid s))

/-! ### Header and length operations (41_header_length.md) -/

/-- R111: `H1_MATCH`. -/
def Obligations.H1MatchStartsFrame : Prop :=
  ∀ (s : State) (x : StepInput),
    exec .h1Match s = .next { s with calcSum := 0x0042, index := 1, status := 0, event := 1 } ∧
    (s.operationFor x = .ok .h1Match ↔ x = .byte 0x42 ∧ s.index = 0) ∧
    (s.operationFor x = .ok .h1Match →
      stepWith x s = .next { s with calcSum := 0x0042, index := 1, status := 0, event := 1 })

/-- R112: `H1_DISCARD`. -/
def Obligations.H1DiscardKeepsHunting : Prop :=
  ∀ (s : State) (x : StepInput) (d : Byte),
    exec (.h1Discard d) s = .next { s with status := 0, event := 2 } ∧
    (s.operationFor x = .ok (.h1Discard d) ↔ x = .byte d ∧ s.index = 0 ∧ d ≠ 0x42) ∧
    (s.operationFor x = .ok (.h1Discard d) → stepWith x s = .next { s with status := 0, event := 2 })

/-- R113: `H2_MATCH`. The sum after it is `0x008F` from every state whose sum is the one the header operations before it
leave (`State.sumInv`, an invariant of its own). -/
def Obligations.H2MatchAcceptsHeader : Prop :=
  ∀ (s : State) (x : StepInput),
    exec .h2Match s = .next { s with calcSum := s.calcSum + 0x004D, index := 2, status := 0, event := 1 } ∧
    (s.operationFor x = .ok .h2Match ↔ x = .byte 0x4D ∧ s.index = 1) ∧
    (s.operationFor x = .ok .h2Match →
      stepWith x s = .next { s with calcSum := s.calcSum + 0x004D, index := 2, status := 0, event := 1 }) ∧
    (s.operationFor x = .ok .h2Match → s.sumInv → ∃ t, stepWith x s = .next t ∧ t.calcSum = 0x008F)

/-- R114: `H2_RESYNC`; a `0x42` in this place is no new header start, and a `0x4D` after it is discarded. -/
def Obligations.H2ResyncReturnsToHunt : Prop :=
  (∀ (s : State) (x : StepInput) (d : Byte),
    exec (.h2Resync d) s = .next { s with index := 0, status := 0, event := 3 } ∧
    (s.operationFor x = .ok (.h2Resync d) ↔ x = .byte d ∧ s.index = 1 ∧ d ≠ 0x4D) ∧
    (s.operationFor x = .ok (.h2Resync d) →
      stepWith x s = .next { s with index := 0, status := 0, event := 3 })) ∧
  ∀ s : State, s.index = 0 →
    ∃ t u v, stepWith (.byte 0x42) s = .next t ∧ stepWith (.byte 0x42) t = .next u ∧
      stepWith (.byte 0x4D) u = .next v ∧ t.operationFor (.byte 0x42) = .ok (.h2Resync 0x42) ∧
      u.operationFor (.byte 0x4D) = .ok (.h1Discard 0x4D) ∧ v.index = 0

/-- R115: `LEN_HI`; any byte is accepted, and a non-zero one is rejected by `LEN_LO_BAD` at the next byte. -/
def Obligations.LenHiLoadsHighByte : Prop :=
  ∀ (s : State) (x : StepInput) (d : Byte),
    exec (.lenHi d) s = .next
      { s with frameLen := d ++ 0x00#8, calcSum := s.calcSum + d.setWidth 16, index := 3, status := 0, event := 1 } ∧
    (s.operationFor x = .ok (.lenHi d) ↔ x = .byte d ∧ s.index = 2) ∧
    (s.operationFor x = .ok (.lenHi d) →
      stepWith x s = .next
        { s with
          frameLen := d ++ 0x00#8, calcSum := s.calcSum + d.setWidth 16, index := 3, status := 0, event := 1 }) ∧
    (s.operationFor x = .ok (.lenHi d) → d ≠ 0x00 →
      ∃ t, stepWith x s = .next t ∧ ∀ e : Byte, t.operationFor (.byte e) = .ok (.lenLoBad e))

/-- R116: `LEN_LO_OK`; the only accepted byte pairs are `00 14` and `00 1C`. The sum after it is `0x00A3` or `0x00AB` from
every state whose sum is the one the header operations before it leave (`State.sumInv`, an invariant of its own). -/
def Obligations.LenLoOkAcceptsValidLength : Prop :=
  ∀ (s : State) (x : StepInput) (d : Byte),
    exec (.lenLoOk d) s = .next
      { s with
        frameLen := s.frameLen.extractLsb' 8 8 ++ d, calcSum := s.calcSum + d.setWidth 16, index := 4,
        status := 0, event := 1 } ∧
    (s.operationFor x = .ok (.lenLoOk d) ↔
      x = .byte d ∧ s.index = 3 ∧
        ((s.frameLen.extractLsb' 8 8 ++ d : Half) = 20 ∨ (s.frameLen.extractLsb' 8 8 ++ d : Half) = 28)) ∧
    (s.operationFor x = .ok (.lenLoOk d) →
      stepWith x s = .next
        { s with
          frameLen := s.frameLen.extractLsb' 8 8 ++ d, calcSum := s.calcSum + d.setWidth 16, index := 4,
          status := 0, event := 1 }) ∧
    (s.operationFor x = .ok (.lenLoOk d) → s.frameLen.extractLsb' 8 8 = 0x00#8 ∧ (d = 0x14 ∨ d = 0x1C)) ∧
    (s.operationFor x = .ok (.lenLoOk d) → s.sumInv →
      ∃ t, stepWith x s = .next t ∧ (d = 0x14 → t.calcSum = 0x00A3) ∧ (d = 0x1C → t.calcSum = 0x00AB))

/-- R117: `LEN_LO_BAD`; the rejected value is kept. -/
def Obligations.LenLoBadRejectsLength : Prop :=
  ∀ (s : State) (x : StepInput) (d : Byte),
    exec (.lenLoBad d) s = .next
      { s with frameLen := s.frameLen.extractLsb' 8 8 ++ d, index := 0, status := 0, event := 4 } ∧
    (s.operationFor x = .ok (.lenLoBad d) ↔
      x = .byte d ∧ s.index = 3 ∧
        ¬((s.frameLen.extractLsb' 8 8 ++ d : Half) = 20 ∨ (s.frameLen.extractLsb' 8 8 ++ d : Half) = 28)) ∧
    (s.operationFor x = .ok (.lenLoBad d) →
      stepWith x s = .next
        { s with frameLen := s.frameLen.extractLsb' 8 8 ++ d, index := 0, status := 0, event := 4 })

/-! ### Payload and checksum operations (42_payload_checksum.md) -/

/-- R130: `PAYLOAD_STORE`; offsets 0 to 17 of a short frame and 0 to 23 of an extended one. -/
def Obligations.PayloadStoreKeepsByte : Prop :=
  ∀ (s : State) (x : StepInput) (d : Byte),
    exec (.payloadStore d) s = .next
      { s with
        calcSum := s.calcSum + d.setWidth 16, buf := s.buf.setIfInBounds (s.index - 4).toNat d,
        index := s.index + 1, status := 0, event := 1 } ∧
    (s.operationFor x = .ok (.payloadStore d) ↔
      x = .byte d ∧ (s.frameLen = 20 ∨ s.frameLen = 28) ∧ 4 ≤ s.index.toNat ∧
        s.index.toNat ≤ s.frameLen.toNat + 1 ∧ s.index.toNat - 4 < 24) ∧
    (s.operationFor x = .ok (.payloadStore d) →
      stepWith x s = .next
        { s with
          calcSum := s.calcSum + d.setWidth 16, buf := s.buf.setIfInBounds (s.index.toNat - 4) d,
          index := s.index + 1, status := 0, event := 1 })

/-- R131: `PAYLOAD_SKIP`; reached only in an extended frame, at `index` 28 and 29. -/
def Obligations.PayloadSkipOnlyAccumulates : Prop :=
  ∀ (s : State) (x : StepInput) (d : Byte),
    exec (.payloadSkip d) s = .next
      { s with calcSum := s.calcSum + d.setWidth 16, index := s.index + 1, status := 0, event := 1 } ∧
    (s.operationFor x = .ok (.payloadSkip d) ↔
      x = .byte d ∧ s.frameLen = 28 ∧ (s.index = 28 ∨ s.index = 29)) ∧
    (s.operationFor x = .ok (.payloadSkip d) →
      stepWith x s = .next
        { s with calcSum := s.calcSum + d.setWidth 16, index := s.index + 1, status := 0, event := 1 })

/-- R132: `CSUM_HI`; `calc` is not changed. -/
def Obligations.CsumHiLoadsHighByte : Prop :=
  ∀ (s : State) (x : StepInput) (d : Byte),
    exec (.csumHi d) s = .next
      { s with rxCsum := d ++ 0x00#8, index := s.index + 1, status := 0, event := 1 } ∧
    (s.operationFor x = .ok (.csumHi d) ↔
      x = .byte d ∧ (s.frameLen = 20 ∨ s.frameLen = 28) ∧ s.index.toNat = s.frameLen.toNat + 2) ∧
    (s.operationFor x = .ok (.csumHi d) →
      stepWith x s = .next { s with rxCsum := d ++ 0x00#8, index := s.index + 1, status := 0, event := 1 })

/-- R133: `CSUM_LO_OK`; the Reading is the extractor's value of the pre-step buffer (R150, stated in
`DecoderPairsBigEndian`). -/
def Obligations.CsumLoOkPublishesReading : Prop :=
  ∀ (s : State) (x : StepInput) (d : Byte),
    exec (.csumLoOk d) s = .next
      { s with
        rxCsum := s.rxCsum.extractLsb' 8 8 ++ d, rd := decodeReading s.buf, index := 0, status := 1, event := 6 } ∧
    (s.operationFor x = .ok (.csumLoOk d) ↔
      x = .byte d ∧ (s.frameLen = 20 ∨ s.frameLen = 28) ∧ s.index.toNat = s.frameLen.toNat + 3 ∧
        (s.rxCsum.extractLsb' 8 8 ++ d : Half) = s.calcSum) ∧
    (s.operationFor x = .ok (.csumLoOk d) →
      stepWith x s = .next
        { s with
          rxCsum := s.rxCsum.extractLsb' 8 8 ++ d, rd := decodeReading s.buf, index := 0, status := 1, event := 6 })

/-- R134: `CSUM_LO_BAD`; `rd` and `buf` keep their values. -/
def Obligations.CsumLoBadDiscardsFrame : Prop :=
  ∀ (s : State) (x : StepInput) (d : Byte),
    exec (.csumLoBad d) s = .next
      { s with rxCsum := s.rxCsum.extractLsb' 8 8 ++ d, index := 0, status := 0, event := 5 } ∧
    (s.operationFor x = .ok (.csumLoBad d) ↔
      x = .byte d ∧ (s.frameLen = 20 ∨ s.frameLen = 28) ∧ s.index.toNat = s.frameLen.toNat + 3 ∧
        (s.rxCsum.extractLsb' 8 8 ++ d : Half) ≠ s.calcSum) ∧
    (s.operationFor x = .ok (.csumLoBad d) →
      stepWith x s = .next
        { s with rxCsum := s.rxCsum.extractLsb' 8 8 ++ d, index := 0, status := 0, event := 5 })

/-! ### The step (30_encoding.md R70, R78; 40_control_ops.md R100) -/

/-- When the step word and the pre-step registers decode to an operation, the step is that operation, applied to the
state whose input has been taken from the queue. The queue is the model's (log entry 1). -/
def Obligations.StepRunsDecodedOperation : Prop :=
  ∀ (s : State) (i : Instr),
    decode ⟨s.index, s.frameLen, s.calcSum, s.rxCsum⟩
        (stepWord s.nextInput.rst s.nextInput.inValid (phaseOf s.index s.frameLen).code s.nextInput.inData) = .ok i →
      step s = exec i { s with inputs := s.inputs.tail } ∧
      step s = stepWith s.nextInput { s with inputs := s.inputs.tail }

/-- R100: every step picks an operation and applies it, and its only other outcome is `fault PHASE_INVALID`. The step is
never refused. -/
def Obligations.StepHasNoOtherOutcome : Prop :=
  ∀ (s : State) (x : StepInput),
    ∃ i : Instr,
      decode ⟨s.index, s.frameLen, s.calcSum, s.rxCsum⟩
          (BitVec.ofBool x.rst ++ BitVec.ofBool x.inValid ++ (phaseOf s.index s.frameLen).code ++ x.inData) = .ok i ∧
      stepWith x s = exec i s ∧
      ((∃ t, stepWith x s = .next t) ∨ (∃ d, i = .phaseInvalid d) ∧ stepWith x s = .fault (.phaseInvalid s))

/-- The decoder undoes the encoder: for every well-formed operation, in every state whose registers meet its row's
condition. The second clause says that some registers meet it. -/
def Obligations.DecodeOfEncode : Prop :=
  (∀ (i : Instr) (c : DecodeContext), i.wellFormed = true → i.condition c = true → decode c (encode i) = .ok i) ∧
  ∀ i : Instr, i.wellFormed = true → ∃ c : DecodeContext, i.condition c = true

/-- The other direction, for the words with no don't-care bits (`rst = 0`, `in_valid = 1`): what such a word decodes to
encodes back to it, is well-formed and meets its row's condition. -/
def Obligations.EncodeOfDecode : Prop :=
  ∀ (c : DecodeContext) (p : BitVec 3) (d : Byte) (i : Instr),
    decode c (stepWord false true p d) = .ok i →
      encode i = stepWord false true p d ∧ i.wellFormed = true ∧ i.condition c = true

/-- Words of 95_test_vectors.md, with the operation the table there gives each in the registers it lists. -/
def Obligations.SpecWordsDecode : Prop :=
  decode ⟨0, 0, 0, 0⟩ 0x1000 = .ok .reset ∧
  decode ⟨7, 28, 0x00B5, 0⟩ 0x0000 = .ok .idle ∧
  decode ⟨0, 0, 0, 0⟩ 0x0842 = .ok .h1Match ∧
  decode ⟨0, 0, 0, 0⟩ 0x084D = .ok (.h1Discard 0x4D) ∧
  decode ⟨1, 0, 0x0042, 0⟩ 0x094D = .ok .h2Match ∧
  decode ⟨1, 0, 0x0042, 0⟩ 0x0942 = .ok (.h2Resync 0x42) ∧
  decode ⟨2, 0, 0x008F, 0⟩ 0x0A00 = .ok (.lenHi 0x00) ∧
  decode ⟨3, 0, 0x008F, 0⟩ 0x0B14 = .ok (.lenLoOk 0x14) ∧
  decode ⟨3, 0x0100, 0x0090, 0⟩ 0x0B14 = .ok (.lenLoBad 0x14) ∧
  decode ⟨4, 28, 0x00AB, 0⟩ 0x0C00 = .ok (.payloadStore 0x00) ∧
  decode ⟨28, 28, 0x0300, 0⟩ 0x0C11 = .ok (.payloadSkip 0x11) ∧
  decode ⟨22, 20, 0x06F2, 0⟩ 0x0D06 = .ok (.csumHi 0x06) ∧
  decode ⟨31, 28, 0x033A, 0x0300⟩ 0x0E3A = .ok (.csumLoOk 0x3A) ∧
  decode ⟨31, 28, 0x033A, 0x0300⟩ 0x0E3B = .ok (.csumLoBad 0x3B) ∧
  decode ⟨9, 5, 0, 0⟩ 0x0F00 = .ok (.phaseInvalid 0x00)

/-- R78, R206: the rows of R78 exclude each other, so no step word sets off two outcomes. -/
def Obligations.RowsExcludeEachOther : Prop :=
  ∀ (c : DecodeContext) (w : StepWord),
    rows.Pairwise fun a b => ¬(a.selects c w = true ∧ b.selects c w = true)

/-- R71: the phase codes. -/
def Obligations.PhaseCodesFollowTable : Prop :=
  ∀ (i : Index) (n : Half),
    ((phaseOf i n).code = 0 ↔ i = 0) ∧
    ((phaseOf i n).code = 1 ↔ i = 1) ∧
    ((phaseOf i n).code = 2 ↔ i = 2) ∧
    ((phaseOf i n).code = 3 ↔ i = 3) ∧
    ((phaseOf i n).code = 4 ↔ (n = 20 ∨ n = 28) ∧ 4 ≤ i.toNat ∧ i.toNat ≤ n.toNat + 1) ∧
    ((phaseOf i n).code = 5 ↔ (n = 20 ∨ n = 28) ∧ i.toNat = n.toNat + 2) ∧
    ((phaseOf i n).code = 6 ↔ (n = 20 ∨ n = 28) ∧ i.toNat = n.toNat + 3) ∧
    ((phaseOf i n).code = 7 ↔ 4 ≤ i.toNat ∧ (¬(n = 20 ∨ n = 28) ∨ n.toNat + 3 < i.toNat))

/-- A word of the opcode table placed by `withFetchWord` is the next step's operation, from every state. What
`withFetchWord` sets beside the input is the model's choice (log entry 5). -/
def Obligations.PlacedWordIsNextOperation : Prop :=
  ∀ (s : State) (nbits w : Nat) (i : Instr),
    decodeTableWord nbits w = some i →
      step (s.withFetchWord nbits w) = exec i { s.withFetchWord nbits w with inputs := s.inputs }

/-! ### What every step keeps -/

/-- The invariants that the spec derives (R29, R77, R136) and R80, kept by every step from every state that meets them.
-/
def Obligations.StepKeepsInvariants : Prop :=
  ∀ s t : State, step s = .next t →
    (s.indexInv → t.indexInv ∧ t.insideFrame) ∧
    t.flagsInv ∧
    (s.sumInv → t.sumInv)

/-- The reset state meets the invariants, whatever the host is going to drive. -/
def Obligations.ResetMeetsInvariants : Prop :=
  ∀ ins : List StepInput, { State.reset with inputs := ins }.inv

/-- What R29 derives by induction, and with it R79 and R207: from reset, under every sequence of inputs, every step
completes and every state meets the index invariant, so `PHASE_INVALID` is never reached. -/
def Obligations.RunsFromResetNeverStop : Prop :=
  ∀ (ins : List StepInput) (k : Nat),
    ∃ t, run k { State.reset with inputs := ins } = .next t ∧ t.inv ∧ t.phase ≠ .none

/-- What R204 derives: no input and no state in the index range makes the block stop; a fault needs an offered byte and
a state outside that range. -/
def Obligations.NoStopInsideIndexRange : Prop :=
  ∀ (s : State) (x : StepInput),
    (s.indexInv → s.safeStep ∧ ∃ t, stepWith x s = .next t) ∧
    (∀ f, stepWith x s = .fault f → x.rst = false ∧ x.inValid = true ∧ ¬s.indexInv) ∧
    ∀ r, stepWith x s ≠ .refused r

/-- R21: a consumed byte advances `index` by 1, with no wrap, or sets it to 0; the frame's last byte sets it to 0. -/
def Obligations.IndexAdvancesOrClears : Prop :=
  ∀ (s t : State) (d : Byte), stepWith (.byte d) s = .next t →
    (t.index.toNat = s.index.toNat + 1 ∨ t.index = 0) ∧
    (4 ≤ s.index.toNat → s.index.toNat = s.frameLen.toNat + 3 → t.index = 0)

/-- R26: every step writes `status`; it is 1 after a step only when that step was `CSUM_LO_OK`, and 0 after every other,
so it is held for exactly one step. -/
def Obligations.StatusSetOnlyByCsumLoOk : Prop :=
  (∀ (s t : State) (x : StepInput), stepWith x s = .next t →
    ((∃ d, s.operationFor x = .ok (.csumLoOk d)) → t.status = 1) ∧
    ((∀ d, s.operationFor x ≠ .ok (.csumLoOk d)) → t.status = 0)) ∧
  ∀ (s t u : State) (x y : StepInput),
    stepWith x s = .next t → stepWith y t = .next u → t.status = 1 → u.status = 0

/-- The event each operation writes (R76); 7 is never written (R80). The clauses on `Event.ofCode`, that a reader takes 7 for
no event and every written code for one, are the model's reading of R80 (log entry 9). -/
def Obligations.EventNamesOperation : Prop :=
  (∀ (s t : State) (i : Instr), exec i s = .next t →
    ((i = .reset ∨ i = .idle) → t.event = 0) ∧
    ((i = .h1Match ∨ i = .h2Match ∨
      ∃ d, i = .lenHi d ∨ i = .lenLoOk d ∨ i = .payloadStore d ∨ i = .payloadSkip d ∨ i = .csumHi d) → t.event = 1) ∧
    ((∃ d, i = .h1Discard d) → t.event = 2) ∧
    ((∃ d, i = .h2Resync d) → t.event = 3) ∧
    ((∃ d, i = .lenLoBad d) → t.event = 4) ∧
    ((∃ d, i = .csumLoBad d) → t.event = 5) ∧
    ((∃ d, i = .csumLoOk d) → t.event = 6) ∧
    t.event ≠ 7 ∧ Event.ofCode t.event ≠ none) ∧
  Event.ofCode 7 = none

/-- R27: neither `event` nor `status` affects the next state. -/
def Obligations.FlagsDoNotInfluenceStep : Prop :=
  ∀ (s t : State) (x : StepInput) (st : BitVec 1) (ev : BitVec 3),
    stepWith x s = .next t → stepWith x { s with status := st, event := ev } = .next t

/-- Under every operation other than `RESET`, `frameLen`, `calc`, `rxCsum` and `rd` change only as the table of R20 names
their writers, and `IDLE` (R102) and `H1_DISCARD` (R112) leave `index` alone; `buf` has its own statement
(`BufferChangesAtStoredByte`). `inputs` is the model's queue (log entry 1). -/
def Obligations.RegistersHaveNamedWriters : Prop :=
  ∀ (i : Instr) (s t : State), exec i s = .next t → i ≠ .reset →
    ((∀ d, i ≠ .lenHi d ∧ i ≠ .lenLoOk d ∧ i ≠ .lenLoBad d) → t.frameLen = s.frameLen) ∧
    ((i ≠ .h1Match ∧ i ≠ .h2Match ∧
      ∀ d, i ≠ .lenHi d ∧ i ≠ .lenLoOk d ∧ i ≠ .payloadStore d ∧ i ≠ .payloadSkip d) → t.calcSum = s.calcSum) ∧
    ((∀ d, i ≠ .csumHi d ∧ i ≠ .csumLoOk d ∧ i ≠ .csumLoBad d) → t.rxCsum = s.rxCsum) ∧
    ((∀ d, i ≠ .csumLoOk d) → t.rd = s.rd) ∧
    ((i = .idle ∨ ∃ d, i = .h1Discard d) → t.index = s.index) ∧
    t.inputs = s.inputs

/-- R25, R53: `RESET` aside, which clears the buffer (R101), the only byte of it that an operation writes is the one
`PAYLOAD_STORE` stores, at the offset `State.storeOffset` computes, `index - 4`. -/
def Obligations.BufferChangesAtStoredByte : Prop :=
  (∀ (d : Byte) (s t : State), exec (.payloadStore d) s = .next t →
    ∀ k : Fin 24,
      (k.val = s.storeOffset → t.bufByte k = d) ∧ (k.val ≠ s.storeOffset → t.bufByte k = s.bufByte k)) ∧
  (∀ s : State, 4 ≤ s.index.toNat → s.storeOffset = s.index.toNat - 4) ∧
  ∀ (i : Instr) (s t : State), exec i s = .next t → i ≠ .reset → (∀ d, i ≠ .payloadStore d) →
    ∀ k : Fin 24, t.bufByte k = s.bufByte k

/-- R58: a step writes the whole Reading or none of it: all eight fields of one accepted frame, all unchanged, or, when
the step is `RESET`, all zero (R101). -/
def Obligations.ReadingUpdatesAtOnce : Prop :=
  ∀ (s t : State) (x : StepInput), stepWith x s = .next t →
    ((∃ d, s.operationFor x = .ok (.csumLoOk d)) → t.status = 1 ∧ ∀ j : Fin 8, t.rd[j] = (decodeReading s.buf)[j]) ∧
    (x.rst = true → ∀ j : Fin 8, t.rd[j] = 0) ∧
    (x.rst = false → (∀ d, s.operationFor x ≠ .ok (.csumLoOk d)) → t.rd = s.rd)

/-- R60: inputs are consumed in order, one per step. The queue they are consumed from is the model's (log entry 1): a run
on the queue is the run of R83's stream, and leaves the rest of the queue. -/
def Obligations.OneInputPerStep : Prop :=
  (∀ (k : Nat) (s t : State), run k s = .next t → t.inputs = s.inputs.drop k) ∧
  ∀ (xs rest : List StepInput) (s t : State), runWith xs s = .next t →
    run xs.length { s with inputs := xs ++ rest } = .next { t with inputs := rest }

/-! ### The checksum and the extractor -/

/-- What R136 derives: in a frame, no sum reaches 2^16 and 13 bits would do; a received checksum above `0x1A91` fails.
-/
def Obligations.ChecksumNeverOverflows : Prop :=
  ∀ s : State, s.indexInv → s.sumInv →
    (1 ≤ s.index.toNat → s.calcSum.toNat < 2 ^ 13) ∧
    (s.frameLen = 28 → (s.phase = .checksumHigh ∨ s.phase = .checksumLow) → s.calcSum.toNat ≤ 6801) ∧
    (s.frameLen = 20 → (s.phase = .checksumHigh ∨ s.phase = .checksumLow) → s.calcSum.toNat ≤ 4753) ∧
    (∀ (d : Byte) (t : State), stepWith (.byte d) s = .next t → t.index.toNat = s.index.toNat + 1 →
      1 ≤ s.index.toNat → (s.phase = .checksumHigh → t.calcSum = s.calcSum) ∧
        (s.phase ≠ .checksumHigh → t.calcSum.toNat = s.calcSum.toNat + d.toNat)) ∧
    (∀ d : Byte, s.phase = .checksumLow → 0x1A91 < (s.rxCsum.extractLsb' 8 8 ++ d).toNat →
      ∃ t, stepWith (.byte d) s = .next t ∧ t.status = 0 ∧ t.event = 5)

/-- R150, R151, R152: the eight fields as numbers; R153: no field depends on offsets 12 to 19. -/
def Obligations.DecoderPairsBigEndian : Prop :=
  (∀ buf : Vector Byte 24,
    (decodeReading buf)[0].toNat = buf[0].toNat * 256 + buf[1].toNat ∧
    (decodeReading buf)[1].toNat = buf[2].toNat * 256 + buf[3].toNat ∧
    (decodeReading buf)[2].toNat = buf[4].toNat * 256 + buf[5].toNat ∧
    (decodeReading buf)[3].toNat = buf[6].toNat * 256 + buf[7].toNat ∧
    (decodeReading buf)[4].toNat = buf[8].toNat * 256 + buf[9].toNat ∧
    (decodeReading buf)[5].toNat = buf[10].toNat * 256 + buf[11].toNat ∧
    (decodeReading buf)[6].toNat = buf[20].toNat * 256 + buf[21].toNat ∧
    (decodeReading buf)[7].toNat = buf[22].toNat * 256 + buf[23].toNat) ∧
  ∀ a b : Vector Byte 24, (∀ k : Fin 24, (k.val < 12 ∨ 20 ≤ k.val) → a[k] = b[k]) → decodeReading a = decodeReading b

/-! ### Errors and outputs (60_exceptions.md R200; 10_state.md R34) -/

/-- R200: the four error conditions, each with its event and its state change; none of them sets `status`. -/
def Obligations.ErrorsFollowTaxonomy : Prop :=
  ∀ (s t : State) (x : StepInput), stepWith x s = .next t →
    (t.event = 2 ↔ ∃ d, x = .byte d ∧ s.index = 0 ∧ d ≠ 0x42) ∧
    (t.event = 3 ↔ ∃ d, x = .byte d ∧ s.index = 1 ∧ d ≠ 0x4D) ∧
    (t.event = 4 ↔ ∃ d, x = .byte d ∧ s.index = 3 ∧
      ¬((s.frameLen.extractLsb' 8 8 ++ d : Half) = 20 ∨ (s.frameLen.extractLsb' 8 8 ++ d : Half) = 28)) ∧
    (t.event = 5 ↔ ∃ d, x = .byte d ∧ (s.frameLen = 20 ∨ s.frameLen = 28) ∧
      s.index.toNat = s.frameLen.toNat + 3 ∧ (s.rxCsum.extractLsb' 8 8 ++ d : Half) ≠ s.calcSum) ∧
    (t.event = 2 → t = { s with status := 0, event := 2 }) ∧
    (t.event = 3 → t = { s with index := 0, status := 0, event := 3 }) ∧
    (t.event = 4 →
      t = { s with index := 0, frameLen := s.frameLen.extractLsb' 8 8 ++ x.inData, status := 0, event := 4 }) ∧
    (t.event = 5 →
      t = { s with index := 0, rxCsum := s.rxCsum.extractLsb' 8 8 ++ x.inData, status := 0, event := 5 })

/-- R34: the output ports. -/
def Obligations.OutputsAreRegisters : Prop :=
  ∀ s : State,
    s.outputs.ok = s.status ∧ s.outputs.event = s.event ∧
    s.outputs.rdSp1 = s.rd[0] ∧ s.outputs.rdSp2 = s.rd[1] ∧ s.outputs.rdSp3 = s.rd[2] ∧
    s.outputs.rdAe1 = s.rd[3] ∧ s.outputs.rdAe2 = s.rd[4] ∧ s.outputs.rdAe3 = s.rd[5] ∧
    s.outputs.rdTemp = s.rd[6] ∧ s.outputs.rdHum = s.rd[7] ∧ s.outputs.inReady = 1

/-! ### Streams -/

/-- R72, R74: what a whole frame does from `index = 0`, for every payload of 18 or 26 bytes and every value in the
checksum field, whatever the state before it. The frame is accepted exactly when that value is the sum of the bytes
before it. -/
def Obligations.FrameAcceptedIffSumMatches : Prop :=
  ∀ (s : State) (p : List Byte) (c : Half), s.index = 0 → (p.length = 18 ∨ p.length = 26) →
    runWith (feed (frameWith p c)) s = .next
      { index := 0
        frameLen := BitVec.ofNat 16 (p.length + 2)
        calcSum := byteSum (frameBody p)
        rxCsum := c
        buf := captured s.buf p
        status := if c = byteSum (frameBody p) then 1 else 0
        event := if c = byteSum (frameBody p) then 6 else 5
        rd := if c = byteSum (frameBody p) then decodeReading (captured s.buf p) else s.rd
        inputs := s.inputs }

/-- What R137 derives: one flipped payload bit, the checksum bytes left alone, makes a passing frame fail. -/
def Obligations.PayloadBitFlipIsDetected : Prop :=
  ∀ (s : State) (p : List Byte) (j : Fin p.length) (b : Nat),
    s.index = 0 → (p.length = 18 ∨ p.length = 26) → b < 8 →
      ∃ t, runWith (feed (frameWith (p.set j (p[j] ^^^ BitVec.twoPow 8 b)) (byteSum (frameBody p)))) s = .next t ∧
        t.status = 0 ∧ t.event = 5 ∧ t.rd = s.rd

/-- R154, R234: a short frame that passes gives the six concentrations of its own payload, and temperature and humidity
from the buffer as it stood before the frame. -/
def Obligations.ShortFrameExposesStaleBytes : Prop :=
  ∀ (s : State) (p : List Byte), p.length = 18 → s.index = 0 →
    ∃ t, runWith (feed (frame p)) s = .next t ∧ t.status = 1 ∧
      t.rd[0] = p.getD 0 0 ++ p.getD 1 0 ∧ t.rd[1] = p.getD 2 0 ++ p.getD 3 0 ∧
      t.rd[2] = p.getD 4 0 ++ p.getD 5 0 ∧ t.rd[3] = p.getD 6 0 ++ p.getD 7 0 ∧
      t.rd[4] = p.getD 8 0 ++ p.getD 9 0 ∧ t.rd[5] = p.getD 10 0 ++ p.getD 11 0 ∧
      t.rd[6] = s.buf[20] ++ s.buf[21] ∧ t.rd[7] = s.buf[22] ++ s.buf[23]

/-- What R235 derives: garbage with no `0x42` directly before a `0x4D`, fed from `index = 0`, leaves `index = 1` exactly
when it ends in an odd run of `0x42`, and no trace in the Reading. A valid frame after it is decoded once when
`index` is 0; otherwise its first two bytes are consumed by `H2_RESYNC` and `H1_DISCARD`. -/
def Obligations.GarbageThenFrame : Prop :=
  (∀ (s : State) (g : List Byte), s.index = 0 → (∀ n : Nat, ¬(g[n]? = some 0x42 ∧ g[n + 1]? = some 0x4D)) →
    ∃ t, runWith (feed g) s = .next t ∧
      t.index = (if (g.reverse.takeWhile (· == 0x42)).length % 2 = 1 then 1 else 0) ∧
      t.rd = s.rd ∧ t.buf = s.buf ∧ t.frameLen = s.frameLen ∧ t.rxCsum = s.rxCsum) ∧
  (∀ (s : State) (g p : List Byte), s.index = 0 → (∀ n : Nat, ¬(g[n]? = some 0x42 ∧ g[n + 1]? = some 0x4D)) →
    (g.reverse.takeWhile (· == 0x42)).length % 2 = 0 → (p.length = 18 ∨ p.length = 26) →
    ∃ t, runWith (feed (g ++ frame p)) s = .next t ∧ t.status = 1 ∧ t.rd = decodeReading (captured s.buf p) ∧
      (events (feed (g ++ frame p)) s).count 6 = 1) ∧
  ∀ (s : State) (p : List Byte), s.index = 1 →
    (operations (feed (frame p)) s).take 2 = [.h2Resync 0x42, .h1Discard 0x4D]

/-- What R237 derives: after a header, a length field of 20 or 28 goes on to the payload phase; any other value
resynchronizes at frame byte 3, and the bytes after it are hunted from `index = 0`. -/
def Obligations.LengthFieldDecidesVariant : Prop :=
  ∀ (s : State) (h l : Byte), s.index = 0 →
    ((h ++ l : Half) = 20 ∨ (h ++ l : Half) = 28 →
      runWith (feed [0x42, 0x4D, h, l]) s = .next
        { s with
          index := 4, frameLen := h ++ l, calcSum := 0x008F + h.setWidth 16 + l.setWidth 16, status := 0, event := 1 }) ∧
    (¬((h ++ l : Half) = 20 ∨ (h ++ l : Half) = 28) →
      operations (feed [0x42, 0x4D, h, l]) s = [.h1Match, .h2Match, .lenHi h, .lenLoBad l] ∧
      runWith (feed [0x42, 0x4D, h, l]) s = .next
        { s with index := 0, frameLen := h ++ l, calcSum := 0x008F + h.setWidth 16, status := 0, event := 4 })

/-- What R242 derives: a stream of inputs with idle steps anywhere in it and the same stream without them consume each
byte with the same operation and the same event, and reach the same registers but for the two flags. -/
def Obligations.IdleStepsChangeOnlyFlags : Prop :=
  ∀ (s : State) (xs ys : List StepInput), ys = xs.filter (fun x => !x.isIdle) →
    ((operations xs s).zip (events xs s)).filter (fun e => e.1 != .idle) = (operations ys s).zip (events ys s) ∧
    (∀ t, runWith xs s = .next t →
      ∃ u, runWith ys s = .next u ∧ u = { t with status := u.status, event := u.event }) ∧
    (∀ u, runWith ys s = .next u →
      ∃ t, runWith xs s = .next t ∧ u = { t with status := u.status, event := u.event })

/-- What R240 derives: the Reading holds over any stream in which no frame passes and no reset is driven. -/
def Obligations.ReadingHoldsBetweenFrames : Prop :=
  ∀ (xs : List StepInput) (s t : State),
    runWith xs s = .next t → (∀ x ∈ xs, x.rst = false) → 6 ∉ events xs s → t.rd = s.rd
end

