-- ==== Sys2Proof/Laws/Decode.lean ====
section
/-! SUPPORT. Laws of the decoder: the fields of a step word, the operation map read by fields instead of by match and
mask, that the map covers every step word, and the phases. -/

namespace Sys2Proof.Laws

open Sys2Proof

/-! ### Bytes -/

theorem toNat_bigEndian (h l : Byte) : (bigEndian h l).toNat = 256 * h.toNat + l.toNat := by
  have := l.isLt
  simp only [bigEndian, BitVec.toNat_append, Nat.shiftLeft_eq]
  rw [Nat.mul_comm, ← Nat.two_pow_add_eq_or_of_lt this]

@[simp] theorem toNat_zext16 (b : Byte) : (zext16 b).toNat = b.toNat := by
  have := b.isLt
  simp [zext16]
  omega

@[simp] theorem highByte_bigEndian (h l : Byte) : highByte (bigEndian h l) = h := by
  simp only [highByte, bigEndian]
  exact BitVec.extractLsb'_append_eq_left

@[simp] theorem lowByte_bigEndian (h l : Byte) : (bigEndian h l).setWidth 8 = l := by
  simp only [bigEndian]
  exact BitVec.setWidth_append_eq_right

theorem toNat_highByte (v : Half) : (highByte v).toNat = v.toNat / 256 := by
  have := v.isLt
  simp [highByte, Nat.shiftRight_eq_div_pow]
  omega

theorem bigEndian_highByte_lowByte (v : Half) : bigEndian (highByte v) (v.setWidth 8) = v := by
  apply BitVec.eq_of_toNat_eq
  rw [toNat_bigEndian, toNat_highByte]
  simp
  omega

/-! ### The step word's fields -/

/-- The five control bits of a step word, above its data byte. -/
theorem stepWord_split (r v : Bool) (p : BitVec 3) (d : Byte) :
    stepWord r v p d = ((BitVec.ofBool r ++ BitVec.ofBool v ++ p : BitVec 5) ++ d : BitVec 13) := rfl

@[simp] theorem wordData_stepWord (r v : Bool) (p : BitVec 3) (d : Byte) : wordData (stepWord r v p d) = d := by
  rw [stepWord_split, wordData]
  exact BitVec.extractLsb'_append_eq_right

@[simp] theorem wordPhase_stepWord (r v : Bool) (p : BitVec 3) (d : Byte) : wordPhase (stepWord r v p d) = p := by
  ext i hi
  simp [stepWord, wordPhase]
  grind

@[simp] theorem wordValid_stepWord (r v : Bool) (p : BitVec 3) (d : Byte) : wordValid (stepWord r v p d) = v := by
  change (BitVec.ofBool r ++ BitVec.ofBool v ++ p ++ d).getLsbD 11 = v
  simp only [BitVec.getLsbD_append]
  simp

@[simp] theorem wordRst_stepWord (r v : Bool) (p : BitVec 3) (d : Byte) : wordRst (stepWord r v p d) = r := by
  change (BitVec.ofBool r ++ BitVec.ofBool v ++ p ++ d).getLsbD 12 = r
  simp only [BitVec.getLsbD_append]
  simp

/-- A step word is its four fields. -/
theorem stepWord_fields (w : StepWord) :
    stepWord (wordRst w) (wordValid w) (wordPhase w) (wordData w) = w := by
  ext i hi
  simp [stepWord, wordRst, wordValid, wordPhase, wordData]
  grind

/-! ### The rows by fields -/

/-- A row that looks at control bits only: whether it matches does not depend on the data byte. -/
theorem matches_control (hi m q : BitVec 5) (d : Byte) :
    (((hi ++ d : BitVec 13) &&& (m ++ 0x00#8 : BitVec 13)) == (q ++ 0x00#8 : BitVec 13)) = (hi &&& m == q) := by
  rw [BitVec.and_append, BitVec.and_zero, Bool.eq_iff_iff, beq_iff_eq, beq_iff_eq]
  constructor
  · intro h
    have h' := congrArg (fun w : BitVec 13 => w.extractLsb' 8 5) h
    simpa only [BitVec.extractLsb'_append_eq_left] using h'
  · rintro rfl
    rfl

/-- The two header rows fix the whole word. -/
theorem matches_word (hi q : BitVec 5) (d e : Byte) :
    (((hi ++ d : BitVec 13) &&& BitVec.allOnes 13) == (q ++ e : BitVec 13)) = (hi == q && d == e) := by
  rw [BitVec.and_allOnes, Bool.eq_iff_iff, beq_iff_eq, Bool.and_eq_true, beq_iff_eq, beq_iff_eq]
  constructor
  · intro h
    have h1 := congrArg (fun w : BitVec 13 => w.extractLsb' 8 5) h
    have h2 := congrArg (fun w : BitVec 13 => w.extractLsb' 0 8) h
    simp only [BitVec.extractLsb'_append_eq_left, BitVec.extractLsb'_append_eq_right] at h1 h2
    exact ⟨h1, h2⟩
  · rintro ⟨rfl, rfl⟩
    rfl

/-- R78 by fields: `rst`, then `in_valid`, then the phase, then the condition. -/
def operationOf (r v : Bool) (p : Phase) (index : Index) (frameLen calcSum rxCsum : Half) (d : Byte) : Instr :=
  if r then .reset
  else if !v then .idle
  else match p with
    | .seekHeader1 => if d = Config.magic0 then .h1Match else .h1Discard d
    | .seekHeader2 => if d = Config.magic1 then .h2Match else .h2Resync d
    | .lenHigh => .lenHi d
    | .lenLow => if validLen (lengthWith frameLen d) then .lenLoOk d else .lenLoBad d
    | .payload => if payloadOffset index < Config.payloadCap then .payloadStore d else .payloadSkip d
    | .checksumHigh => .csumHi d
    | .checksumLow => if checksumWith rxCsum d = calcSum then .csumLoOk d else .csumLoBad d
    | .none => .phaseInvalid d

/-- The first row that selects a step word is the one its fields name. -/
theorem decode_stepWord (r v : Bool) (p : Phase) (c : DecodeContext) (d : Byte) :
    decode c (stepWord r v p.code d) = .ok (operationOf r v p c.index c.frameLen c.calcSum c.rxCsum d) := by
  have hd : wordData (stepWord r v p.code d) = d := wordData_stepWord r v p.code d
  rw [decode, hd]
  simp only [Row.selects, hd, rows, headRows, tailRows, List.cons_append, List.nil_append, List.find?_cons]
  rw [stepWord_split]
  generalize hh : (BitVec.ofBool r ++ BitVec.ofBool v ++ p.code : BitVec 5) = hi
  have rst : (((hi ++ d : BitVec 13) &&& 0x1000) == (0x1000 : BitVec 13)) = (hi &&& 0x10 == 0x10) :=
    matches_control hi 0x10 0x10 d
  have idl : (((hi ++ d : BitVec 13) &&& 0x1800) == (0x0000 : BitVec 13)) = (hi &&& 0x18 == 0x00) :=
    matches_control hi 0x18 0x00 d
  have h1 : (((hi ++ d : BitVec 13) &&& 0x1FFF) == (0x0842 : BitVec 13)) = (hi == 0x08 && d == Config.magic0) :=
    matches_word hi 0x08 d Config.magic0
  have h2 : (((hi ++ d : BitVec 13) &&& 0x1FFF) == (0x094D : BitVec 13)) = (hi == 0x09 && d == Config.magic1) :=
    matches_word hi 0x09 d Config.magic1
  have c0 : (((hi ++ d : BitVec 13) &&& 0x1F00) == (0x0800 : BitVec 13)) = (hi &&& 0x1F == 0x08) :=
    matches_control hi 0x1F 0x08 d
  have c1 : (((hi ++ d : BitVec 13) &&& 0x1F00) == (0x0900 : BitVec 13)) = (hi &&& 0x1F == 0x09) :=
    matches_control hi 0x1F 0x09 d
  have c2 : (((hi ++ d : BitVec 13) &&& 0x1F00) == (0x0A00 : BitVec 13)) = (hi &&& 0x1F == 0x0A) :=
    matches_control hi 0x1F 0x0A d
  have c3 : (((hi ++ d : BitVec 13) &&& 0x1F00) == (0x0B00 : BitVec 13)) = (hi &&& 0x1F == 0x0B) :=
    matches_control hi 0x1F 0x0B d
  have c4 : (((hi ++ d : BitVec 13) &&& 0x1F00) == (0x0C00 : BitVec 13)) = (hi &&& 0x1F == 0x0C) :=
    matches_control hi 0x1F 0x0C d
  have c5 : (((hi ++ d : BitVec 13) &&& 0x1F00) == (0x0D00 : BitVec 13)) = (hi &&& 0x1F == 0x0D) :=
    matches_control hi 0x1F 0x0D d
  have c6 : (((hi ++ d : BitVec 13) &&& 0x1F00) == (0x0E00 : BitVec 13)) = (hi &&& 0x1F == 0x0E) :=
    matches_control hi 0x1F 0x0E d
  have c7 : (((hi ++ d : BitVec 13) &&& 0x1F00) == (0x0F00 : BitVec 13)) = (hi &&& 0x1F == 0x0F) :=
    matches_control hi 0x1F 0x0F d
  simp only [rst, idl, h1, h2, c0, c1, c2, c3, c4, c5, c6, c7]
  clear rst idl h1 h2 c0 c1 c2 c3 c4 c5 c6 c7
  subst hh
  cases r
  · cases v
    · cases p <;> rfl
    · cases p
      · by_cases h : d = Config.magic0
        · simp [operationOf, Phase.code, h]
        · simp [operationOf, Phase.code, h, bne, beq_false_of_ne h]
      · by_cases h : d = Config.magic1
        · simp [operationOf, Phase.code, h]
        · simp [operationOf, Phase.code, h, bne, beq_false_of_ne h]
      · rfl
      · cases h : validLen (lengthWith c.frameLen d) <;> simp [operationOf, Phase.code, h]
      · by_cases h : payloadOffset c.index < Config.payloadCap
        · simp [operationOf, Phase.code, h]
        · simp [operationOf, Phase.code, h, Nat.le_of_not_lt h]
      · rfl
      · by_cases h : checksumWith c.rxCsum d = c.calcSum
        · simp [operationOf, Phase.code, h]
        · simp [operationOf, Phase.code, h, bne, beq_false_of_ne h]
      · rfl
  · cases v <;> cases p <;> rfl

/-- The code of a phase determines it. -/
theorem code_injective : Function.Injective Phase.code := by
  intro p q h
  cases p <;> cases q <;> first | rfl | exact absurd h (by decide)

/-- Every 3-bit code is some phase's: the operation map covers every step word. -/
theorem code_surjective (p : BitVec 3) : ∃ q : Phase, q.code = p := by
  have h : ∀ n : Fin 8, ∃ q : Phase, q.code.toNat = n.val := by
    intro n
    fin_cases n
    exacts [⟨.seekHeader1, rfl⟩, ⟨.seekHeader2, rfl⟩, ⟨.lenHigh, rfl⟩, ⟨.lenLow, rfl⟩, ⟨.payload, rfl⟩,
      ⟨.checksumHigh, rfl⟩, ⟨.checksumLow, rfl⟩, ⟨.none, rfl⟩]
  obtain ⟨q, hq⟩ := h ⟨p.toNat, p.isLt⟩
  exact ⟨q, BitVec.eq_of_toNat_eq hq⟩

/-- Every 13-bit word decodes: `noRow` never happens. -/
theorem decode_total (c : DecodeContext) (w : StepWord) : ∃ i, decode c w = .ok i := by
  obtain ⟨p, hp⟩ := code_surjective (wordPhase w)
  refine ⟨operationOf (wordRst w) (wordValid w) p c.index c.frameLen c.calcSum c.rxCsum (wordData w), ?_⟩
  rw [← decode_stepWord, hp, stepWord_fields]

/-! ### Phases (30_encoding.md R71) -/

theorem validLen_iff (n : Half) : validLen n = true ↔ n = 20 ∨ n = 28 := by
  simp [validLen, Config.lenShort, Config.lenExt]

/-- The two valid lengths as numbers, for arithmetic. -/
theorem toNat_of_validLen {n : Half} (h : validLen n = true) : n.toNat = 20 ∨ n.toNat = 28 := by
  rcases (validLen_iff n).1 h with rfl | rfl <;> simp

/-- The payload offset of R53 never underflows once the header is past. -/
theorem payloadOffset_of_le {i : Index} (h : 4 ≤ i.toNat) : payloadOffset i = i.toNat - 4 := by
  have := i.isLt
  have h4 : (4 : Index).toNat = 4 := rfl
  simp only [payloadOffset, BitVec.toNat_sub, h4]
  omega

theorem phaseOf_header (index : Index) (frameLen : Half) :
    (phaseOf index frameLen = .seekHeader1 ↔ index.toNat = 0) ∧
    (phaseOf index frameLen = .seekHeader2 ↔ index.toNat = 1) ∧
    (phaseOf index frameLen = .lenHigh ↔ index.toNat = 2) ∧
    (phaseOf index frameLen = .lenLow ↔ index.toNat = 3) := by
  unfold phaseOf
  repeat' split
  all_goals simp_all

theorem phaseOf_payload (index : Index) (frameLen : Half) :
    phaseOf index frameLen = .payload ↔
      validLen frameLen = true ∧ 4 ≤ index.toNat ∧ index.toNat ≤ frameLen.toNat + 1 := by
  cases hv : validLen frameLen
  · simp only [phaseOf, hv, if_true]
    split_ifs <;> simp
  · simp only [phaseOf, hv, Bool.true_eq_false, if_false]
    split_ifs <;> simp <;> omega

theorem phaseOf_checksumHigh (index : Index) (frameLen : Half) :
    phaseOf index frameLen = .checksumHigh ↔ validLen frameLen = true ∧ index.toNat = frameLen.toNat + 2 := by
  cases hv : validLen frameLen
  · simp only [phaseOf, hv, if_true]
    split_ifs <;> simp
  · have := toNat_of_validLen hv
    simp only [phaseOf, hv, Bool.true_eq_false, if_false]
    split_ifs <;> simp <;> omega

theorem phaseOf_checksumLow (index : Index) (frameLen : Half) :
    phaseOf index frameLen = .checksumLow ↔ validLen frameLen = true ∧ index.toNat = frameLen.toNat + 3 := by
  cases hv : validLen frameLen
  · simp only [phaseOf, hv, if_true]
    split_ifs <;> simp
  · have := toNat_of_validLen hv
    simp only [phaseOf, hv, Bool.true_eq_false, if_false]
    split_ifs <;> simp <;> omega

end Sys2Proof.Laws
end

