-- ==== Sys2Proof/Laws/State.lean ====
section
/-! SUPPORT. One lemma per field per register operation: what the field holds after it. -/

namespace Sys2Proof.Laws

open Sys2Proof Sys2Proof.Machine

variable (s : State)

@[simp] theorem setFlags_index (st : BitVec 1) (e : Event) : (s.setFlags st e).index = s.index := rfl
@[simp] theorem setFlags_frameLen (st : BitVec 1) (e : Event) : (s.setFlags st e).frameLen = s.frameLen := rfl
@[simp] theorem setFlags_calcSum (st : BitVec 1) (e : Event) : (s.setFlags st e).calcSum = s.calcSum := rfl
@[simp] theorem setFlags_rxCsum (st : BitVec 1) (e : Event) : (s.setFlags st e).rxCsum = s.rxCsum := rfl
@[simp] theorem setFlags_buf (st : BitVec 1) (e : Event) : (s.setFlags st e).buf = s.buf := rfl
@[simp] theorem setFlags_status (st : BitVec 1) (e : Event) : (s.setFlags st e).status = st := rfl
@[simp] theorem setFlags_event (st : BitVec 1) (e : Event) : (s.setFlags st e).event = e.code := rfl
@[simp] theorem setFlags_rd (st : BitVec 1) (e : Event) : (s.setFlags st e).rd = s.rd := rfl
@[simp] theorem setFlags_inputs (st : BitVec 1) (e : Event) : (s.setFlags st e).inputs = s.inputs := rfl

@[simp] theorem consumeInput_index : (s.consumeInput).index = s.index := rfl
@[simp] theorem consumeInput_frameLen : (s.consumeInput).frameLen = s.frameLen := rfl
@[simp] theorem consumeInput_calcSum : (s.consumeInput).calcSum = s.calcSum := rfl
@[simp] theorem consumeInput_rxCsum : (s.consumeInput).rxCsum = s.rxCsum := rfl
@[simp] theorem consumeInput_buf : (s.consumeInput).buf = s.buf := rfl
@[simp] theorem consumeInput_status : (s.consumeInput).status = s.status := rfl
@[simp] theorem consumeInput_event : (s.consumeInput).event = s.event := rfl
@[simp] theorem consumeInput_rd : (s.consumeInput).rd = s.rd := rfl
@[simp] theorem consumeInput_inputs : (s.consumeInput).inputs = s.inputs.tail := rfl

@[simp] theorem accumulate_index (b : Byte) : (s.accumulate b).index = s.index := rfl
@[simp] theorem accumulate_frameLen (b : Byte) : (s.accumulate b).frameLen = s.frameLen := rfl
@[simp] theorem accumulate_calcSum (b : Byte) : (s.accumulate b).calcSum = s.calcSum + zext16 b := rfl
@[simp] theorem accumulate_rxCsum (b : Byte) : (s.accumulate b).rxCsum = s.rxCsum := rfl
@[simp] theorem accumulate_buf (b : Byte) : (s.accumulate b).buf = s.buf := rfl
@[simp] theorem accumulate_status (b : Byte) : (s.accumulate b).status = s.status := rfl
@[simp] theorem accumulate_event (b : Byte) : (s.accumulate b).event = s.event := rfl
@[simp] theorem accumulate_rd (b : Byte) : (s.accumulate b).rd = s.rd := rfl
@[simp] theorem accumulate_inputs (b : Byte) : (s.accumulate b).inputs = s.inputs := rfl

@[simp] theorem loadCalc_index (v : Half) : (s.loadCalc v).index = s.index := rfl
@[simp] theorem loadCalc_frameLen (v : Half) : (s.loadCalc v).frameLen = s.frameLen := rfl
@[simp] theorem loadCalc_calcSum (v : Half) : (s.loadCalc v).calcSum = v := rfl
@[simp] theorem loadCalc_rxCsum (v : Half) : (s.loadCalc v).rxCsum = s.rxCsum := rfl
@[simp] theorem loadCalc_buf (v : Half) : (s.loadCalc v).buf = s.buf := rfl
@[simp] theorem loadCalc_status (v : Half) : (s.loadCalc v).status = s.status := rfl
@[simp] theorem loadCalc_event (v : Half) : (s.loadCalc v).event = s.event := rfl
@[simp] theorem loadCalc_rd (v : Half) : (s.loadCalc v).rd = s.rd := rfl
@[simp] theorem loadCalc_inputs (v : Half) : (s.loadCalc v).inputs = s.inputs := rfl

@[simp] theorem setIndex_index (i : Index) : (s.setIndex i).index = i := rfl
@[simp] theorem setIndex_frameLen (i : Index) : (s.setIndex i).frameLen = s.frameLen := rfl
@[simp] theorem setIndex_calcSum (i : Index) : (s.setIndex i).calcSum = s.calcSum := rfl
@[simp] theorem setIndex_rxCsum (i : Index) : (s.setIndex i).rxCsum = s.rxCsum := rfl
@[simp] theorem setIndex_buf (i : Index) : (s.setIndex i).buf = s.buf := rfl
@[simp] theorem setIndex_status (i : Index) : (s.setIndex i).status = s.status := rfl
@[simp] theorem setIndex_event (i : Index) : (s.setIndex i).event = s.event := rfl
@[simp] theorem setIndex_rd (i : Index) : (s.setIndex i).rd = s.rd := rfl
@[simp] theorem setIndex_inputs (i : Index) : (s.setIndex i).inputs = s.inputs := rfl

@[simp] theorem advance_index : (s.advance).index = s.index + 1 := rfl
@[simp] theorem advance_frameLen : (s.advance).frameLen = s.frameLen := rfl
@[simp] theorem advance_calcSum : (s.advance).calcSum = s.calcSum := rfl
@[simp] theorem advance_rxCsum : (s.advance).rxCsum = s.rxCsum := rfl
@[simp] theorem advance_buf : (s.advance).buf = s.buf := rfl
@[simp] theorem advance_status : (s.advance).status = s.status := rfl
@[simp] theorem advance_event : (s.advance).event = s.event := rfl
@[simp] theorem advance_rd : (s.advance).rd = s.rd := rfl
@[simp] theorem advance_inputs : (s.advance).inputs = s.inputs := rfl

@[simp] theorem setFrameLen_index (n : Half) : (s.setFrameLen n).index = s.index := rfl
@[simp] theorem setFrameLen_frameLen (n : Half) : (s.setFrameLen n).frameLen = n := rfl
@[simp] theorem setFrameLen_calcSum (n : Half) : (s.setFrameLen n).calcSum = s.calcSum := rfl
@[simp] theorem setFrameLen_rxCsum (n : Half) : (s.setFrameLen n).rxCsum = s.rxCsum := rfl
@[simp] theorem setFrameLen_buf (n : Half) : (s.setFrameLen n).buf = s.buf := rfl
@[simp] theorem setFrameLen_status (n : Half) : (s.setFrameLen n).status = s.status := rfl
@[simp] theorem setFrameLen_event (n : Half) : (s.setFrameLen n).event = s.event := rfl
@[simp] theorem setFrameLen_rd (n : Half) : (s.setFrameLen n).rd = s.rd := rfl
@[simp] theorem setFrameLen_inputs (n : Half) : (s.setFrameLen n).inputs = s.inputs := rfl

@[simp] theorem setRxCsum_index (v : Half) : (s.setRxCsum v).index = s.index := rfl
@[simp] theorem setRxCsum_frameLen (v : Half) : (s.setRxCsum v).frameLen = s.frameLen := rfl
@[simp] theorem setRxCsum_calcSum (v : Half) : (s.setRxCsum v).calcSum = s.calcSum := rfl
@[simp] theorem setRxCsum_rxCsum (v : Half) : (s.setRxCsum v).rxCsum = v := rfl
@[simp] theorem setRxCsum_buf (v : Half) : (s.setRxCsum v).buf = s.buf := rfl
@[simp] theorem setRxCsum_status (v : Half) : (s.setRxCsum v).status = s.status := rfl
@[simp] theorem setRxCsum_event (v : Half) : (s.setRxCsum v).event = s.event := rfl
@[simp] theorem setRxCsum_rd (v : Half) : (s.setRxCsum v).rd = s.rd := rfl
@[simp] theorem setRxCsum_inputs (v : Half) : (s.setRxCsum v).inputs = s.inputs := rfl

@[simp] theorem storeByte_index (o : Nat) (b : Byte) : (s.storeByte o b).index = s.index := rfl
@[simp] theorem storeByte_frameLen (o : Nat) (b : Byte) : (s.storeByte o b).frameLen = s.frameLen := rfl
@[simp] theorem storeByte_calcSum (o : Nat) (b : Byte) : (s.storeByte o b).calcSum = s.calcSum := rfl
@[simp] theorem storeByte_rxCsum (o : Nat) (b : Byte) : (s.storeByte o b).rxCsum = s.rxCsum := rfl
@[simp] theorem storeByte_buf (o : Nat) (b : Byte) : (s.storeByte o b).buf = s.buf.setIfInBounds o b := rfl
@[simp] theorem storeByte_status (o : Nat) (b : Byte) : (s.storeByte o b).status = s.status := rfl
@[simp] theorem storeByte_event (o : Nat) (b : Byte) : (s.storeByte o b).event = s.event := rfl
@[simp] theorem storeByte_rd (o : Nat) (b : Byte) : (s.storeByte o b).rd = s.rd := rfl
@[simp] theorem storeByte_inputs (o : Nat) (b : Byte) : (s.storeByte o b).inputs = s.inputs := rfl

@[simp] theorem writeReading_index : (s.writeReading).index = s.index := rfl
@[simp] theorem writeReading_frameLen : (s.writeReading).frameLen = s.frameLen := rfl
@[simp] theorem writeReading_calcSum : (s.writeReading).calcSum = s.calcSum := rfl
@[simp] theorem writeReading_rxCsum : (s.writeReading).rxCsum = s.rxCsum := rfl
@[simp] theorem writeReading_buf : (s.writeReading).buf = s.buf := rfl
@[simp] theorem writeReading_status : (s.writeReading).status = s.status := rfl
@[simp] theorem writeReading_event : (s.writeReading).event = s.event := rfl
@[simp] theorem writeReading_rd : (s.writeReading).rd = decodeReading s.buf := rfl
@[simp] theorem writeReading_inputs : (s.writeReading).inputs = s.inputs := rfl

@[simp] theorem accept_index : (s.accept).index = s.index := rfl
@[simp] theorem accept_frameLen : (s.accept).frameLen = s.frameLen := rfl
@[simp] theorem accept_calcSum : (s.accept).calcSum = s.calcSum := rfl
@[simp] theorem accept_rxCsum : (s.accept).rxCsum = s.rxCsum := rfl
@[simp] theorem accept_buf : (s.accept).buf = s.buf := rfl
@[simp] theorem accept_status : (s.accept).status = waiting := rfl
@[simp] theorem accept_event : (s.accept).event = Event.accept.code := rfl
@[simp] theorem accept_rd : (s.accept).rd = s.rd := rfl
@[simp] theorem accept_inputs : (s.accept).inputs = s.inputs := rfl

@[simp] theorem resync_index (e : Event) : (s.resync e).index = 0 := rfl
@[simp] theorem resync_frameLen (e : Event) : (s.resync e).frameLen = s.frameLen := rfl
@[simp] theorem resync_calcSum (e : Event) : (s.resync e).calcSum = s.calcSum := rfl
@[simp] theorem resync_rxCsum (e : Event) : (s.resync e).rxCsum = s.rxCsum := rfl
@[simp] theorem resync_buf (e : Event) : (s.resync e).buf = s.buf := rfl
@[simp] theorem resync_status (e : Event) : (s.resync e).status = waiting := rfl
@[simp] theorem resync_event (e : Event) : (s.resync e).event = e.code := rfl
@[simp] theorem resync_rd (e : Event) : (s.resync e).rd = s.rd := rfl
@[simp] theorem resync_inputs (e : Event) : (s.resync e).inputs = s.inputs := rfl

@[simp] theorem clear_index : (s.clear).index = 0 := rfl
@[simp] theorem clear_frameLen : (s.clear).frameLen = 0 := rfl
@[simp] theorem clear_calcSum : (s.clear).calcSum = 0 := rfl
@[simp] theorem clear_rxCsum : (s.clear).rxCsum = 0 := rfl
@[simp] theorem clear_buf : (s.clear).buf = Vector.replicate Config.payloadCap 0 := rfl
@[simp] theorem clear_status : (s.clear).status = waiting := rfl
@[simp] theorem clear_event : (s.clear).event = Event.idle.code := rfl
@[simp] theorem clear_rd : (s.clear).rd = Vector.replicate Config.nFields 0 := rfl
@[simp] theorem clear_inputs : (s.clear).inputs = s.inputs := rfl

@[simp] theorem enterPhase_index (p : BitVec 3) : (s.enterPhase p).index = (tableContext p).index := rfl
@[simp] theorem enterPhase_frameLen (p : BitVec 3) :
    (s.enterPhase p).frameLen = if p.toNat < 3 then s.frameLen else (tableContext p).frameLen := rfl
@[simp] theorem enterPhase_calcSum (p : BitVec 3) :
    (s.enterPhase p).calcSum = if p.toNat = 6 then (tableContext p).calcSum else s.calcSum := rfl
@[simp] theorem enterPhase_rxCsum (p : BitVec 3) :
    (s.enterPhase p).rxCsum = if p.toNat = 6 then (tableContext p).rxCsum else s.rxCsum := rfl
@[simp] theorem enterPhase_buf (p : BitVec 3) : (s.enterPhase p).buf = s.buf := rfl
@[simp] theorem enterPhase_status (p : BitVec 3) : (s.enterPhase p).status = s.status := rfl
@[simp] theorem enterPhase_event (p : BitVec 3) : (s.enterPhase p).event = s.event := rfl
@[simp] theorem enterPhase_rd (p : BitVec 3) : (s.enterPhase p).rd = s.rd := rfl
@[simp] theorem enterPhase_inputs (p : BitVec 3) : (s.enterPhase p).inputs = s.inputs := rfl

/-! ### What the decoder reads -/

@[simp] theorem consumeInput_phase : s.consumeInput.phase = s.phase := rfl
@[simp] theorem consumeInput_context : s.consumeInput.context = s.context := rfl
@[simp] theorem setFlags_phase (st : BitVec 1) (e : Event) : (s.setFlags st e).phase = s.phase := rfl
@[simp] theorem setFlags_context (st : BitVec 1) (e : Event) : (s.setFlags st e).context = s.context := rfl

@[simp] theorem context_index : s.context.index = s.index := rfl
@[simp] theorem context_frameLen : s.context.frameLen = s.frameLen := rfl
@[simp] theorem context_calcSum : s.context.calcSum = s.calcSum := rfl
@[simp] theorem context_rxCsum : s.context.rxCsum = s.rxCsum := rfl

end Sys2Proof.Laws
end

