-- ==== Sys2Proof/Laws/Ops.lean ====
section
/-! SUPPORT. What the shared operations do, one lemma each: the buffer's read after write, the field extractor by
offsets, the event codes. -/

namespace Sys2Proof.Laws

open Sys2Proof Sys2Proof.Machine

variable (s : State)

/-! ### The payload buffer -/

/-- A write to `buf[o]` changes that byte and no other (R53). -/
theorem bufByte_storeByte (o : Nat) (b : Byte) (k : Fin Config.payloadCap) :
    (s.storeByte o b).bufByte k = if o = k.val then b else s.bufByte k := by
  simp [State.bufByte, State.storeByte, Vector.getElem_setIfInBounds]

/-- Offsets of 24 and above are not addressable (R54). -/
theorem storeByte_outside {o : Nat} (b : Byte) (h : Config.payloadCap ≤ o) : s.storeByte o b = s := by
  simp [State.storeByte, Vector.setIfInBounds_eq_of_size_le h]

/-- Two buffers that agree on every byte are equal. -/
theorem buf_ext {s t : State} (h : ∀ k, s.bufByte k = t.bufByte k) : s.buf = t.buf := by
  apply Vector.ext
  intro k hk
  exact h ⟨k, hk⟩

/-! ### The field extractor -/

/-- Field `j` is the big-endian pair at `FIELD_OFFSETS[j]` and the offset after it (R4, R75). -/
theorem decodeReading_field (buf : Vector Byte Config.payloadCap) (j : Fin Config.nFields) :
    (decodeReading buf)[j] =
      bigEndian (buf[Config.fieldOffsets[j]]'(by fin_cases j <;> decide))
        (buf[Config.fieldOffsets[j] + 1]'(by fin_cases j <;> decide)) := by
  fin_cases j <;> rfl

/-! ### Flags -/

theorem event_code_injective : Function.Injective Event.code := by
  intro a b h
  cases a <;> cases b <;> first | rfl | exact absurd h (by decide)

/-- A named event reads back as itself. -/
@[simp] theorem ofCode_code (e : Event) : Event.ofCode e.code = some e := by
  cases e <;> rfl

/-- No named event has the reserved code (R80). -/
theorem event_code_ne_reserved (e : Event) : e.code ≠ 7 := by
  cases e <;> decide

end Sys2Proof.Laws
end

