-- ==== Sys2Proof/Laws/PerInstr.lean ====
section
/-! SUPPORT. Per-instruction statements over the syntax of an operation. `RowWord`: a well-formed operation's word
carries the match bits that opcode_table.json gives its row. -/

namespace Sys2Proof.Laws.RowWord

open Sys2Proof

/-- The place of an operation's row in R78, counted from 0. -/
def rowIndex : Instr → Nat
  | .reset => 0
  | .idle => 1
  | .h1Match => 2
  | .h1Discard _ => 3
  | .h2Match => 4
  | .h2Resync _ => 5
  | .lenHi _ => 6
  | .lenLoOk _ => 7
  | .lenLoBad _ => 8
  | .payloadStore _ => 9
  | .payloadSkip _ => 10
  | .csumHi _ => 11
  | .csumLoOk _ => 12
  | .csumLoBad _ => 13
  | .phaseInvalid _ => 14

/-- The operation's word agrees with its row's match on the row's mask, and the row builds the operation from the word's
data byte. -/
def Statement (i : Instr) : Prop :=
  i.wellFormed = true →
    ∃ row, rows[rowIndex i]? = some row ∧ encode i &&& row.mask = row.pattern ∧ row.build (wordData (encode i)) = i

/-- A word with control bits `q` matches a row that asks for them, whatever its data byte. -/
theorem word_matches (q : BitVec 5) (d : Byte) :
    (q ++ d : BitVec 13) &&& (0x1F00 : StepWord) = (q ++ 0x00#8 : BitVec 13) := by
  have h := matches_control q 0x1F q d
  rw [show (0x1F : BitVec 5) = BitVec.allOnes 5 from rfl, BitVec.and_allOnes] at h
  exact eq_of_beq (h.trans (beq_self_eq_true q))

theorem reset : Statement .reset := fun _ => ⟨_, rfl, by decide, rfl⟩
theorem idle : Statement .idle := fun _ => ⟨_, rfl, by decide, rfl⟩
theorem h1Match : Statement .h1Match := fun _ => ⟨_, rfl, by decide, rfl⟩
theorem h1Discard (d : Byte) : Statement (.h1Discard d) :=
  fun _ => ⟨_, rfl, word_matches 0x08 d, congrArg _ (wordData_stepWord ..)⟩
theorem h2Match : Statement .h2Match := fun _ => ⟨_, rfl, by decide, rfl⟩
theorem h2Resync (d : Byte) : Statement (.h2Resync d) :=
  fun _ => ⟨_, rfl, word_matches 0x09 d, congrArg _ (wordData_stepWord ..)⟩
theorem lenHi (d : Byte) : Statement (.lenHi d) :=
  fun _ => ⟨_, rfl, word_matches 0x0A d, congrArg _ (wordData_stepWord ..)⟩
theorem lenLoOk (d : Byte) : Statement (.lenLoOk d) :=
  fun _ => ⟨_, rfl, word_matches 0x0B d, congrArg _ (wordData_stepWord ..)⟩
theorem lenLoBad (d : Byte) : Statement (.lenLoBad d) :=
  fun _ => ⟨_, rfl, word_matches 0x0B d, congrArg _ (wordData_stepWord ..)⟩
theorem payloadStore (d : Byte) : Statement (.payloadStore d) :=
  fun _ => ⟨_, rfl, word_matches 0x0C d, congrArg _ (wordData_stepWord ..)⟩
theorem payloadSkip (d : Byte) : Statement (.payloadSkip d) :=
  fun _ => ⟨_, rfl, word_matches 0x0C d, congrArg _ (wordData_stepWord ..)⟩
theorem csumHi (d : Byte) : Statement (.csumHi d) :=
  fun _ => ⟨_, rfl, word_matches 0x0D d, congrArg _ (wordData_stepWord ..)⟩
theorem csumLoOk (d : Byte) : Statement (.csumLoOk d) :=
  fun _ => ⟨_, rfl, word_matches 0x0E d, congrArg _ (wordData_stepWord ..)⟩
theorem csumLoBad (d : Byte) : Statement (.csumLoBad d) :=
  fun _ => ⟨_, rfl, word_matches 0x0E d, congrArg _ (wordData_stepWord ..)⟩
theorem phaseInvalid (d : Byte) : Statement (.phaseInvalid d) :=
  fun _ => ⟨_, rfl, word_matches 0x0F d, congrArg _ (wordData_stepWord ..)⟩

end Sys2Proof.Laws.RowWord
end

