-- ==== Sys2Proof/Laws/Step.lean ====
section
/-! SUPPORT. What a step can do, said once, and how runs compose. -/

namespace Sys2Proof.Laws

open Sys2Proof Sys2Proof.Machine

variable (s : State)

/-- The operation for given inputs by the fields of the step word; the decoder never rejects. -/
theorem operationFor_eq (x : StepInput) :
    s.operationFor x =
      .ok (operationOf x.rst x.inValid s.phase s.index s.frameLen s.calcSum s.rxCsum x.inData) :=
  decode_stepWord _ _ _ s.context _

/-- The operation for an offered byte: the phase and its condition name it. -/
theorem operationFor_byte (d : Byte) :
    s.operationFor (.byte d) = .ok (operationOf false true s.phase s.index s.frameLen s.calcSum s.rxCsum d) :=
  operationFor_eq s _

/-- An operation other than `RESET` and `IDLE` comes from an offered byte. -/
theorem operationFor_eq_ok_iff (x : StepInput) {i : Instr} (hr : i ≠ .reset) (hi : i ≠ .idle) :
    s.operationFor x = .ok i ↔
      ∃ d, x = .byte d ∧ operationOf false true s.phase s.index s.frameLen s.calcSum s.rxCsum d = i := by
  rw [operationFor_eq]
  rcases x with ⟨r, v, x⟩
  simp only [Except.ok.injEq, StepInput.byte, StepInput.mk.injEq]
  constructor
  · intro e
    cases r
    · cases v
      · exact absurd e.symm hi
      · exact ⟨x, ⟨rfl, rfl, rfl⟩, e⟩
    · exact absurd e.symm hr
  · rintro ⟨d, ⟨rfl, rfl, rfl⟩, e⟩
    exact e

/-- A step whose operation is known applies it. -/
theorem stepWith_of_operationFor {x : StepInput} {i : Instr} (h : s.operationFor x = .ok i) :
    stepWith x s = exec i s := by
  rw [stepWith, h]

/-- The queue is not among the registers R78 reads. -/
@[simp] theorem operationFor_consumeInput (x : StepInput) : s.consumeInput.operationFor x = s.operationFor x := rfl

/-- A step whose operation is known applies it to the state whose input has been consumed. -/
theorem step_of_operation {i : Instr} (h : s.operation = .ok i) : step s = exec i s.consumeInput :=
  stepWith_of_operationFor s.consumeInput h

/-- The operation of the next step is that of its inputs. -/
theorem operation_eq_operationFor : s.operation = s.operationFor s.nextInput := rfl

/-! ### Phases by `index` (30_encoding.md R71) -/

/-- A 5-bit literal by its number. -/
theorem index_eq_iff {i : Index} {n : Nat} (h : n < 32) : i = BitVec.ofNat 5 n ↔ i.toNat = n := by
  constructor
  · rintro rfl
    simp
    omega
  · intro e
    apply BitVec.eq_of_toNat_eq
    simp [e]
    omega

theorem phase_seekHeader1 : s.phase = .seekHeader1 ↔ s.index = 0 :=
  (phaseOf_header _ _).1.trans (index_eq_iff (n := 0) (by decide)).symm

theorem phase_seekHeader2 : s.phase = .seekHeader2 ↔ s.index = 1 :=
  (phaseOf_header _ _).2.1.trans (index_eq_iff (n := 1) (by decide)).symm

theorem phase_lenHigh : s.phase = .lenHigh ↔ s.index = 2 :=
  (phaseOf_header _ _).2.2.1.trans (index_eq_iff (n := 2) (by decide)).symm

theorem phase_lenLow : s.phase = .lenLow ↔ s.index = 3 :=
  (phaseOf_header _ _).2.2.2.trans (index_eq_iff (n := 3) (by decide)).symm

/-! ### The next input -/

@[simp] theorem nextInput_cons (x : StepInput) (xs : List StepInput) (h : s.inputs = x :: xs) : s.nextInput = x := by
  simp [State.nextInput, h]

@[simp] theorem nextInput_nil (h : s.inputs = []) : s.nextInput = StepInput.none := by
  simp [State.nextInput, h]

/-! ### Outcomes -/

/-- Two next states are the same outcome only if they are the same state. -/
@[simp] theorem next_inj {s t : State} : (Host.Outcome.next s : Result) = .next t ↔ s = t :=
  ⟨fun h => by injection h, fun h => h ▸ rfl⟩

@[simp] theorem fault_ne_next {f : Fault} {t : State} : ¬(Host.Outcome.fault f : Result) = .next t := nofun

@[simp] theorem refused_ne_next {r : Refusal} {t : State} : ¬(Host.Outcome.refused r : Result) = .next t := nofun

/-- An operation completes unless it is `PHASE_INVALID`, which faults with the state it was met in. -/
theorem exec_cases (i : Instr) :
    (∃ t, exec i s = .next t) ∨ ∃ d, i = .phaseInvalid d ∧ exec i s = .fault (.phaseInvalid s) := by
  cases i with
  | phaseInvalid d => exact .inr ⟨d, rfl, rfl⟩
  | _ => exact .inl ⟨_, rfl⟩

/-! ### Streams -/

@[simp] theorem feed_nil : feed [] = [] := rfl

@[simp] theorem feed_cons (b : Byte) (bs : List Byte) : feed (b :: bs) = .byte b :: feed bs := rfl

theorem feed_append (as bs : List Byte) : feed (as ++ bs) = feed as ++ feed bs := List.map_append

theorem captured_get (buf : Vector Byte Config.payloadCap) (p : List Byte) (k : Nat) (h : k < Config.payloadCap) :
    (captured buf p)[k] = p.getD k buf[k] := by
  simp [captured]

/-! ### Runs -/

@[simp] theorem runWith_nil : runWith [] s = .next s := rfl

theorem runWith_cons {t : State} {x : StepInput} (xs : List StepInput) (h : stepWith x s = .next t) :
    runWith (x :: xs) s = runWith xs t := by
  rw [runWith, h]

theorem events_cons {t : State} {x : StepInput} (xs : List StepInput) (h : stepWith x s = .next t) :
    events (x :: xs) s = t.event :: events xs t := by
  rw [events, h]

theorem operations_cons {t : State} {x : StepInput} {i : Instr} (xs : List StepInput)
    (hi : s.operationFor x = .ok i) (h : stepWith x s = .next t) :
    operations (x :: xs) s = i :: operations xs t := by
  rw [operations, hi, h]

/-- A stream's run splits at any point it reaches. -/
theorem runWith_append {t : State} (xs ys : List StepInput) (h : runWith xs s = .next t) :
    runWith (xs ++ ys) s = runWith ys t := by
  induction xs generalizing s with
  | nil =>
    rw [next_inj.1 h]
    rfl
  | cons x xs ih =>
    rw [runWith] at h
    cases hs : stepWith x s with
    | next u => rw [List.cons_append, runWith_cons s _ hs, ih u (by simpa [hs] using h)]
    | fault f => simp [hs] at h
    | refused r => simp [hs] at h

/-- The events of a stream are those of its parts. -/
theorem events_append {t : State} (xs ys : List StepInput) (h : runWith xs s = .next t) :
    events (xs ++ ys) s = events xs s ++ events ys t := by
  induction xs generalizing s with
  | nil =>
    rw [next_inj.1 h]
    rfl
  | cons x xs ih =>
    rw [runWith] at h
    cases hs : stepWith x s with
    | next u =>
      rw [List.cons_append, events_cons s _ hs, events_cons s _ hs, ih u (by simpa [hs] using h), List.cons_append]
    | fault f => simp [hs] at h
    | refused r => simp [hs] at h

@[simp] theorem run_zero : run 0 s = .next s := rfl

theorem run_succ {t : State} (k : Nat) (h : step s = .next t) : run (k + 1) s = run k t := by
  rw [run, h]

/-- The host's run of the machine is this one. -/
theorem run_eq_core_run (k : Nat) : Sys2Proof.core.run k s = run k s := by
  induction k generalizing s with
  | zero => rfl
  | succ k ih =>
    change Host.Core.run ⟨State, Fault, Refusal, step, State.reset⟩ (k + 1) s = _
    change ∀ u : State, Host.Core.run ⟨State, Fault, Refusal, step, State.reset⟩ k u = run k u at ih
    rw [Host.Core.run, run]
    dsimp only
    cases step s with
    | next t => exact ih t
    | fault f => rfl
    | refused r => rfl

end Sys2Proof.Laws
end

