-- ==== Sys2Proof/Tests/Slice0.lean ====
section
/-! SUPPORT. The model's own tests: the WellFormed smoke test, a word per operation written out from 30_encoding.md R70 and
R78, single steps with the expected values of 95_test_vectors.md, and a witness for the hypotheses of each statement. -/

namespace Sys2Proof.Tests

open Sys2Proof Sys2Proof.Machine

/-! ### WellFormed: an ill-formed term for each check -/

theorem test_wellFormed_refuses_h1Discard_of_magic0 : (Instr.h1Discard 0x42).wellFormed = false := by decide
theorem test_wellFormed_refuses_h2Resync_of_magic1 : (Instr.h2Resync 0x4D).wellFormed = false := by decide
theorem test_wellFormed_refuses_lenLoOk_of_other_length : (Instr.lenLoOk 0x15).wellFormed = false := by decide
theorem test_wellFormed_accepts_both_lengths :
    (Instr.lenLoOk 0x14).wellFormed = true ∧ (Instr.lenLoOk 0x1C).wellFormed = true := by decide

/-! ### Decode: `r v ppp dddddddd` (R70) with R78's rows; contexts are index, frameLen, calc, rxCsum -/

theorem test_decode_reset : (decode ⟨7, 28, 0, 0⟩ 0b1_1_111_01000010).toOption = some .reset := by decide
theorem test_decode_idle : (decode ⟨9, 5, 0, 0⟩ 0b0_0_111_01000010).toOption = some .idle := by decide
theorem test_decode_h1Match : (decode ⟨0, 0, 0, 0⟩ 0b0_1_000_01000010).toOption = some .h1Match := by decide
theorem test_decode_h1Discard :
    (decode ⟨0, 0, 0, 0⟩ 0b0_1_000_01001101).toOption = some (.h1Discard 0x4D) := by decide
theorem test_decode_h2Match : (decode ⟨1, 0, 0, 0⟩ 0b0_1_001_01001101).toOption = some .h2Match := by decide
theorem test_decode_h2Resync :
    (decode ⟨1, 0, 0, 0⟩ 0b0_1_001_01000010).toOption = some (.h2Resync 0x42) := by decide
theorem test_decode_lenHi : (decode ⟨2, 0, 0, 0⟩ 0b0_1_010_00000001).toOption = some (.lenHi 0x01) := by decide
theorem test_decode_lenLoOk :
    (decode ⟨3, 0x0000, 0, 0⟩ 0b0_1_011_00011100).toOption = some (.lenLoOk 0x1C) := by decide
theorem test_decode_lenLoBad :
    (decode ⟨3, 0x0100, 0, 0⟩ 0b0_1_011_00011100).toOption = some (.lenLoBad 0x1C) := by decide
theorem test_decode_payloadStore :
    (decode ⟨27, 28, 0, 0⟩ 0b0_1_100_11000010).toOption = some (.payloadStore 0xC2) := by decide
theorem test_decode_payloadSkip :
    (decode ⟨28, 28, 0, 0⟩ 0b0_1_100_00010001).toOption = some (.payloadSkip 0x11) := by decide
theorem test_decode_csumHi : (decode ⟨22, 20, 0, 0⟩ 0b0_1_101_00000110).toOption = some (.csumHi 0x06) := by decide
theorem test_decode_csumLoOk :
    (decode ⟨31, 28, 0x033A, 0x0300⟩ 0b0_1_110_00111010).toOption = some (.csumLoOk 0x3A) := by decide
theorem test_decode_csumLoBad :
    (decode ⟨31, 28, 0x033A, 0x0000⟩ 0b0_1_110_00111010).toOption = some (.csumLoBad 0x3A) := by decide
theorem test_decode_phaseInvalid :
    (decode ⟨9, 5, 0, 0⟩ 0b0_1_111_00000000).toOption = some (.phaseInvalid 0x00) := by decide
theorem test_decode_rejects_bit_13 : decodeTableWord 16 0x2842 = none := by decide

/-! ### Single steps -/

/-- A state at a frame position, the rest at its reset value, with the inputs of the next steps. -/
def position (index : Index) (frameLen calcSum rxCsum : Half) (ins : List StepInput) : State :=
  { State.reset with index := index, frameLen := frameLen, calcSum := calcSum, rxCsum := rxCsum, inputs := ins }

/-- A state with a value in every register, for the operations that must leave some of them alone. -/
def busy (index : Index) (frameLen calcSum rxCsum : Half) (ins : List StepInput) : State :=
  { position index frameLen calcSum rxCsum ins with
    buf := Vector.replicate 24 0x5A, status := 1, event := 6, rd := Vector.replicate 8 0x1234 }

/-- `buf` after the frame EXT of 95_test_vectors.md. -/
def extBuf : Vector Byte 24 :=
  #v[0x00, 0x0A, 0x00, 0x14, 0x00, 0x1E, 0x00, 0x0B, 0x00, 0x15, 0x00, 0x1F,
     0x01, 0x02, 0x03, 0x04, 0x05, 0x06, 0x07, 0x08, 0x00, 0xFA, 0x01, 0xC2]

/-- A field of the next state. -/
def after {α : Type} (f : State → α) (r : Result) : Option α :=
  match r with
  | .next t => some (f t)
  | .fault _ => none
  | .refused _ => none

/-- The state a fault carries. -/
def faulted (r : Result) : Bool :=
  match r with
  | .next _ => false
  | .fault (.phaseInvalid _) => true
  | .refused _ => false

/-- V-C1: reset in the middle of a frame. -/
theorem test_reset_clears : after id (step (busy 7 28 0x00B5 0 [.reset])) = some State.reset := by decide
/-- V-C2: a byte offered with `rst = 1` is dropped. -/
theorem test_reset_drops_byte : after id (step (position 0 0 0 0 [⟨true, true, 0x42⟩])) = some State.reset := by decide
/-- V-C3. -/
theorem test_idle_clears_ok :
    after (fun t => (t.status, t.event, t.rd)) (step (busy 0 28 0 0 [.idle])) =
      some (0, 0, Vector.replicate 8 0x1234) := by decide
/-- V-C6: an idle step in a state outside the index range is still `IDLE`. -/
theorem test_idle_ignores_phase : after State.index (step (position 9 5 0 0 [.idle])) = some 9 := by decide
/-- V-C5, V-C7. -/
theorem test_phaseInvalid_faults :
    faulted (step (position 9 5 0 0 [.byte 0x00])) = true ∧
    faulted (step (position 30 20 0 0 [.byte 0x00])) = true := by decide
/-- V-H2: the old sum is dropped. -/
theorem test_h1Match_reloads_calc :
    after (fun t => (t.index, t.calcSum, t.event)) (step (position 0 0 0x1234 0 [.byte 0x42])) =
      some (1, 0x0042, 1) := by decide
/-- V-H3. -/
theorem test_h1Discard_magic1 :
    after (fun t => (t.index, t.calcSum, t.event)) (step (position 0 0 0x1234 0 [.byte 0x4D])) =
      some (0, 0x1234, 2) := by decide
/-- V-H5. -/
theorem test_h2Match_accumulates :
    after (fun t => (t.index, t.calcSum, t.event)) (step (position 1 0 0x0042 0 [.byte 0x4D])) =
      some (2, 0x008F, 1) := by decide
/-- V-H6: a second `0x42` is no new header start. -/
theorem test_h2Resync_magic0 :
    after (fun t => (t.index, t.calcSum, t.event)) (step (position 1 0 0x0042 0 [.byte 0x42])) =
      some (0, 0x0042, 3) := by decide
/-- V-H9. -/
theorem test_lenHi_nonzero :
    after (fun t => (t.index, t.frameLen, t.calcSum)) (step (position 2 0x1234 0x008F 0 [.byte 0x01])) =
      some (3, 0x0100, 0x0090) := by decide
/-- V-H10. -/
theorem test_lenLoOk_short :
    after (fun t => (t.index, t.frameLen, t.calcSum)) (step (position 3 0 0x008F 0 [.byte 0x14])) =
      some (4, 0x0014, 0x00A3) := by decide
/-- V-H12: the rejected value is kept and `calc` is not changed. -/
theorem test_lenLoBad_keeps_value :
    after (fun t => (t.index, t.frameLen, t.calcSum, t.event)) (step (position 3 0 0x008F 0 [.byte 0x15])) =
      some (0, 0x0015, 0x008F, 4) := by decide
/-- V-H14: all 16 bits of the length are compared. -/
theorem test_lenLoBad_high_byte :
    after (fun t => (t.frameLen, t.event)) (step (position 3 0x0100 0x0090 0 [.byte 0x14])) =
      some (0x0114, 4) := by decide
/-- V-P2: the last stored offset. -/
theorem test_payloadStore_last :
    after (fun t => (t.index, t.bufByte 23, t.bufByte 22)) (step (busy 27 28 0 0 [.byte 0xC2])) =
      some (28, 0xC2, 0x5A) := by decide
/-- V-P5: a header byte inside a payload is data. -/
theorem test_payloadStore_magic :
    after (fun t => (t.index, t.bufByte 6, t.calcSum)) (step (position 10 20 0x0100 0 [.byte 0x42])) =
      some (11, 0x42, 0x0142) := by decide
/-- V-P3. -/
theorem test_payloadSkip_accumulates :
    after (fun t => (t.index, t.calcSum, t.buf)) (step (busy 28 28 0x0300 0 [.byte 0x11])) =
      some (29, 0x0311, Vector.replicate 24 0x5A) := by decide
/-- V-P6. -/
theorem test_csumHi_short :
    after (fun t => (t.index, t.rxCsum, t.calcSum)) (step (position 22 20 0x06F2 0x1234 [.byte 0x06])) =
      some (23, 0x0600, 0x06F2) := by decide
/-- V-P8, with `buf` as after EXT; the fields are V-D2's. -/
theorem test_csumLoOk_reading :
    after (fun t => (t.index, t.rxCsum, t.status, t.event, t.rd))
        (step { position 31 28 0x033A 0x0300 [.byte 0x3A] with buf := extBuf }) =
      some (0, 0x033A, 1, 6, #v[0x000A, 0x0014, 0x001E, 0x000B, 0x0015, 0x001F, 0x00FA, 0x01C2]) := by decide
/-- V-P11: the largest reachable sum. -/
theorem test_csumLoOk_largest_sum :
    after State.status (step (position 31 28 0x1A91 0x1A00 [.byte 0x91])) = some 1 := by decide
/-- V-P9. -/
theorem test_csumLoBad_keeps_reading :
    after (fun t => (t.index, t.rxCsum, t.status, t.event, t.rd)) (step (busy 31 28 0x033A 0x0300 [.byte 0x3B])) =
      some (0, 0x033B, 0, 5, Vector.replicate 8 0x1234) := by decide
/-- V-P10: the high byte counts. -/
theorem test_csumLoBad_high_byte :
    after (fun t => (t.rxCsum, t.event)) (step (position 31 28 0x033A 0x0000 [.byte 0x3A])) =
      some (0x003A, 5) := by decide
/-- R83 with EXT's first payload bytes: `frame(P)`'s header and length, and V-D3. -/
theorem test_frame_header : (frame (List.replicate 18 0x00)).take 4 = [0x42, 0x4D, 0x00, 0x14] := by decide
theorem test_decodeReading_ones : decodeReading (Vector.replicate 24 0xFF) = Vector.replicate 8 0xFFFF := by decide

/-! ### Witnesses: states and operands that meet the hypotheses of the statements, a clause at a time -/

/-- `i` is the operation a step with the inputs `x` performs. -/
def performs (s : State) (x : StepInput) (i : Instr) : Bool := (s.operationFor x).toOption == some i

/-- A step with the inputs `x` completes. -/
def completes (s : State) (x : StepInput) : Bool := (after id (stepWith x s)).isSome

theorem performs_iff {s : State} {x : StepInput} {i : Instr} (h : performs s x i = true) : s.operationFor x = .ok i := by
  unfold performs at h
  cases e : s.operationFor x <;> simp_all [Except.toOption]

theorem completes_iff {s : State} {x : StepInput} (h : completes s x = true) : ∃ t, stepWith x s = .next t := by
  unfold completes at h
  cases e : stepWith x s <;> simp_all [after]

theorem witness_ResetRestoresResetValues : (⟨true, true, 0x42⟩ : StepInput).rst = true := by decide
theorem witness_IdleWritesOnlyFlags : StepInput.idle.rst = false ∧ StepInput.idle.inValid = false := by decide
theorem witness_PhaseInvalidFaults :
    (position 4 21 0 0 []).operationFor (.byte 0x00) = .ok (.phaseInvalid 0x00) ∧
    (position 24 20 0 0 []).operationFor (.byte 0xFF) = .ok (.phaseInvalid 0xFF) :=
  ⟨performs_iff (by decide), performs_iff (by decide)⟩
theorem witness_H1MatchStartsFrame : (position 0 0 0 0 []).operationFor (.byte 0x42) = .ok .h1Match :=
  performs_iff (by decide)
theorem witness_H1DiscardKeepsHunting : (position 0 0 0 0 []).operationFor (.byte 0x43) = .ok (.h1Discard 0x43) :=
  performs_iff (by decide)
theorem witness_H2MatchAcceptsHeader : (position 1 0 0x0042 0 []).operationFor (.byte 0x4D) = .ok .h2Match :=
  performs_iff (by decide)
theorem witness_H2ResyncReturnsToHunt :
    (position 1 0 0x0042 0 []).operationFor (.byte 0x4C) = .ok (.h2Resync 0x4C) ∧ State.reset.index = 0 :=
  ⟨performs_iff (by decide), by decide⟩
theorem witness_LenHiLoadsHighByte : (position 2 0 0x008F 0 []).operationFor (.byte 0xFF) = .ok (.lenHi 0xFF) :=
  performs_iff (by decide)
theorem witness_LenLoOkAcceptsValidLength :
    (position 3 0 0x008F 0 []).operationFor (.byte 0x14) = .ok (.lenLoOk 0x14) ∧
    (position 3 0 0x008F 0 []).operationFor (.byte 0x1C) = .ok (.lenLoOk 0x1C) :=
  ⟨performs_iff (by decide), performs_iff (by decide)⟩
theorem witness_LenLoBadRejectsLength :
    (position 3 0 0x008F 0 []).operationFor (.byte 0x13) = .ok (.lenLoBad 0x13) ∧
    (position 3 0xFF00 0x018E 0 []).operationFor (.byte 0x1C) = .ok (.lenLoBad 0x1C) :=
  ⟨performs_iff (by decide), performs_iff (by decide)⟩
theorem witness_H2MatchAcceptsHeader_sum :
    (position 1 0 0x0042 0 []).operationFor (.byte 0x4D) = .ok .h2Match ∧ (position 1 0 0x0042 0 []).sumInv ∧
    ∃ t, stepWith (.byte 0x4D) (position 1 0 0x0042 0 []) = .next t :=
  ⟨performs_iff (by decide), by decide, completes_iff (by decide)⟩
theorem witness_LenLoOkAcceptsValidLength_short_sum :
    (position 3 0 0x008F 0 []).operationFor (.byte 0x14) = .ok (.lenLoOk 0x14) ∧ (position 3 0 0x008F 0 []).sumInv ∧
    after State.frameLen (stepWith (.byte 0x14) (position 3 0 0x008F 0 [])) = some 20 :=
  ⟨performs_iff (by decide), by decide, by decide⟩
theorem witness_LenLoOkAcceptsValidLength_extended_sum :
    (position 3 0 0x008F 0 []).operationFor (.byte 0x1C) = .ok (.lenLoOk 0x1C) ∧ (position 3 0 0x008F 0 []).sumInv ∧
    after State.frameLen (stepWith (.byte 0x1C) (position 3 0 0x008F 0 [])) = some 28 :=
  ⟨performs_iff (by decide), by decide, by decide⟩
theorem witness_PayloadStoreKeepsByte :
    (position 4 20 0 0 []).operationFor (.byte 0x00) = .ok (.payloadStore 0x00) ∧
    (position 21 20 0 0 []).operationFor (.byte 0x34) = .ok (.payloadStore 0x34) ∧
    (position 27 28 0 0 []).operationFor (.byte 0xFF) = .ok (.payloadStore 0xFF) :=
  ⟨performs_iff (by decide), performs_iff (by decide), performs_iff (by decide)⟩
theorem witness_PayloadSkipOnlyAccumulates :
    (position 28 28 0 0 []).operationFor (.byte 0x11) = .ok (.payloadSkip 0x11) ∧
    (position 29 28 0 0 []).operationFor (.byte 0x22) = .ok (.payloadSkip 0x22) :=
  ⟨performs_iff (by decide), performs_iff (by decide)⟩
theorem witness_CsumHiLoadsHighByte :
    (position 22 20 0 0 []).operationFor (.byte 0x06) = .ok (.csumHi 0x06) ∧
    (position 30 28 0 0 []).operationFor (.byte 0x03) = .ok (.csumHi 0x03) :=
  ⟨performs_iff (by decide), performs_iff (by decide)⟩
theorem witness_CsumLoOkPublishesReading :
    (position 23 20 0x06F2 0x0600 []).operationFor (.byte 0xF2) = .ok (.csumLoOk 0xF2) ∧
    (position 31 28 0x033A 0x0300 []).operationFor (.byte 0x3A) = .ok (.csumLoOk 0x3A) :=
  ⟨performs_iff (by decide), performs_iff (by decide)⟩
theorem witness_CsumLoBadDiscardsFrame :
    (position 23 20 0x1291 0xFF00 []).operationFor (.byte 0xFF) = .ok (.csumLoBad 0xFF) ∧
    (position 31 28 0x033A 0x0300 []).operationFor (.byte 0x3B) = .ok (.csumLoBad 0x3B) :=
  ⟨performs_iff (by decide), performs_iff (by decide)⟩
theorem witness_StepRunsDecodedOperation :
    decode ⟨1, 0, 0x0042, 0⟩ (stepWord false true (phaseOf 1 0).code 0x4D) = .ok .h2Match ∧
    (position 1 0 0x0042 0 [.byte 0x4D]).nextInput = .byte 0x4D :=
  ⟨performs_iff (s := position 1 0 0x0042 0 []) (x := .byte 0x4D) (by decide), rfl⟩
theorem witness_DecodeOfEncode :
    (Instr.lenLoOk 0x14).wellFormed = true ∧ (Instr.lenLoOk 0x14).condition ⟨3, 0x0000, 0, 0⟩ = true := by decide
theorem witness_EncodeOfDecode : decode ⟨28, 28, 0, 0⟩ (stepWord false true 4 0x11) = .ok (.payloadSkip 0x11) :=
  performs_iff (s := position 28 28 0 0 []) (x := .byte 0x11) (by decide)
theorem witness_PlacedWordIsNextOperation :
    decodeTableWord 16 0x0842 = some .h1Match ∧ decodeTableWord 16 0x0F00 = some (.phaseInvalid 0x00) := by decide
theorem witness_StepKeepsInvariants :
    (position 29 28 0x008F 0 [.byte 0xFF]).indexInv ∧ (position 29 28 0x008F 0 [.byte 0xFF]).sumInv ∧
    ∃ t, step (position 29 28 0x008F 0 [.byte 0xFF]) = .next t :=
  ⟨by decide, by decide, _, rfl⟩
theorem witness_NoStopInsideIndexRange :
    (position 31 28 0 0 []).indexInv ∧ ∃ f, stepWith (.byte 0x00) (position 24 20 0 0 []) = .fault f :=
  ⟨by decide, _, rfl⟩
theorem witness_IndexAdvancesOrClears :
    (∃ t, stepWith (.byte 0x00) (position 31 28 0 0 []) = .next t) ∧ 4 ≤ (position 31 28 0 0 []).index.toNat ∧
    (position 31 28 0 0 []).index.toNat = (position 31 28 0 0 []).frameLen.toNat + 3 :=
  ⟨completes_iff (by decide), by decide, by decide⟩
theorem witness_StatusSetOnlyByCsumLoOk :
    (position 31 28 0 0 []).operationFor (.byte 0x00) = .ok (.csumLoOk 0x00) ∧
    (∃ t, stepWith (.byte 0x00) (position 31 28 0 0 []) = .next t) ∧
    (position 31 28 1 0 []).operationFor (.byte 0x00) = .ok (.csumLoBad 0x00) ∧
    ∃ t, stepWith (.byte 0x00) (position 31 28 1 0 []) = .next t :=
  ⟨performs_iff (by decide), completes_iff (by decide), performs_iff (by decide), completes_iff (by decide)⟩
theorem witness_StatusSetOnlyByCsumLoOk_twice :
    ∃ t u, stepWith (.byte 0x00) (position 31 28 0 0 []) = .next t ∧ stepWith (.byte 0x42) t = .next u ∧ t.status = 1 :=
  ⟨_, _, rfl, rfl, by decide⟩
theorem witness_EventNamesOperation :
    (∃ t, exec .reset State.reset = .next t) ∧ (∃ t, exec .idle State.reset = .next t) ∧
    (∃ t, exec .h1Match State.reset = .next t) ∧ (∃ t, exec (.csumHi 0x06) State.reset = .next t) ∧
    (∃ t, exec (.h1Discard 0x43) State.reset = .next t) ∧ (∃ t, exec (.h2Resync 0x42) State.reset = .next t) ∧
    (∃ t, exec (.lenLoBad 0x15) State.reset = .next t) ∧ (∃ t, exec (.csumLoBad 0x3B) State.reset = .next t) ∧
    (∃ t, exec (.csumLoOk 0x3A) State.reset = .next t) :=
  ⟨⟨_, rfl⟩, ⟨_, rfl⟩, ⟨_, rfl⟩, ⟨_, rfl⟩, ⟨_, rfl⟩, ⟨_, rfl⟩, ⟨_, rfl⟩, ⟨_, rfl⟩, ⟨_, rfl⟩⟩
theorem witness_FlagsDoNotInfluenceStep : ∃ t, stepWith (.byte 0xC2) (busy 27 28 0 0 []) = .next t :=
  completes_iff (by decide)
/-- `IDLE` meets every premise of the frame at once. -/
theorem witness_RegistersHaveNamedWriters :
    (∃ t, exec .idle (busy 9 5 1 2 []) = .next t) ∧ Instr.idle ≠ .reset ∧ Instr.idle ≠ .h1Match ∧ Instr.idle ≠ .h2Match ∧
    ∀ d, Instr.idle ≠ .lenHi d ∧ Instr.idle ≠ .lenLoOk d ∧ Instr.idle ≠ .lenLoBad d ∧ Instr.idle ≠ .payloadStore d ∧
      Instr.idle ≠ .payloadSkip d ∧ Instr.idle ≠ .csumHi d ∧ Instr.idle ≠ .csumLoOk d ∧ Instr.idle ≠ .csumLoBad d :=
  ⟨⟨_, rfl⟩, nofun, nofun, nofun, fun _ => ⟨nofun, nofun, nofun, nofun, nofun, nofun, nofun, nofun⟩⟩
theorem witness_BufferChangesAtStoredByte :
    (∃ t, exec (.payloadStore 0x01) (busy 4 20 0 0 []) = .next t) ∧ (busy 4 20 0 0 []).storeOffset = 0 ∧
    (busy 27 28 0 0 []).storeOffset = 23 ∧ ∃ t, exec (.payloadSkip 0x01) (busy 28 28 0 0 []) = .next t :=
  ⟨⟨_, rfl⟩, by decide, by decide, ⟨_, rfl⟩⟩
theorem witness_ReadingUpdatesAtOnce :
    (position 31 28 0x033A 0x0300 []).operationFor (.byte 0x3A) = .ok (.csumLoOk 0x3A) ∧
    (∃ t, stepWith (.byte 0x3A) (position 31 28 0x033A 0x0300 []) = .next t) ∧
    (∃ t, stepWith .reset (busy 7 28 0 0 []) = .next t) ∧
    (busy 7 28 0 0 []).operationFor (.byte 0x00) = .ok (.payloadStore 0x00) ∧
    ∃ t, stepWith (.byte 0x00) (busy 7 28 0 0 []) = .next t :=
  ⟨performs_iff (by decide), completes_iff (by decide), completes_iff (by decide), performs_iff (by decide),
    completes_iff (by decide)⟩
theorem witness_OneInputPerStep :
    (∃ t, run 2 (position 0 0 0 0 [.byte 0x42, .byte 0x4D]) = .next t) ∧
    ∃ t, runWith [.byte 0x42, .byte 0x4D] (position 0 0 0 0 []) = .next t :=
  ⟨⟨_, rfl⟩, ⟨_, rfl⟩⟩
theorem witness_ChecksumNeverOverflows :
    (position 30 28 6801 0 []).indexInv ∧ (position 30 28 6801 0 []).sumInv ∧
    (position 30 28 6801 0 []).phase = .checksumHigh ∧
    (position 23 20 4753 0 []).indexInv ∧ (position 23 20 4753 0 []).sumInv ∧
    (position 23 20 4753 0 []).phase = .checksumLow := by decide
theorem witness_ChecksumNeverOverflows_steps :
    (∃ t, stepWith (.byte 0xFF) (position 29 28 0x008F 0 []) = .next t ∧ t.index = 30) ∧
    (∃ t, stepWith (.byte 0xFF) (position 30 28 0x008F 0 []) = .next t ∧ t.index = 31) ∧
    (position 31 28 0x1A91 0x1A00 []).indexInv ∧ (position 31 28 0x1A91 0x1A00 []).sumInv ∧
    (position 31 28 0x1A91 0x1A00 []).phase = .checksumLow ∧
    0x1A91 < ((position 31 28 0x1A91 0x1A00 []).rxCsum.extractLsb' 8 8 ++ 0x92#8).toNat :=
  ⟨⟨_, rfl, rfl⟩, ⟨_, rfl, rfl⟩, by decide, by decide, by decide, by decide⟩
theorem witness_DecoderPairsBigEndian :
    (∀ k : Fin 24, (k.val < 12 ∨ 20 ≤ k.val) → (Vector.replicate 24 0x00#8)[k] =
      ((Vector.replicate 24 0x00#8).setIfInBounds 12 0xAA#8)[k]) ∧
    Vector.replicate 24 0x00#8 ≠ (Vector.replicate 24 0x00#8).setIfInBounds 12 0xAA#8 := by decide
theorem witness_ErrorsFollowTaxonomy :
    after State.event (stepWith (.byte 0x43) (position 0 0 0 0 [])) = some 2 ∧
    after State.event (stepWith (.byte 0x42) (position 1 0 0 0 [])) = some 3 ∧
    after State.event (stepWith (.byte 0x00) (position 3 0 0 0 [])) = some 4 ∧
    after State.event (stepWith (.byte 0x00) (position 23 20 1 0 [])) = some 5 := by decide
theorem witness_FrameAcceptedIffSumMatches :
    (busy 0 0 0 0 []).index = 0 ∧ (List.replicate 18 (0x01 : Byte)).length = 18 ∧
    (List.replicate 26 (0x01 : Byte)).length = 26 ∧ (0 : Half) ≠ byteSum (frameBody (List.replicate 26 0x01)) := by
  decide
/-- The last payload bit of an extended frame, which no field captures: bit 7 of offset 25. -/
theorem witness_PayloadBitFlipIsDetected :
    (busy 0 0 0 0 []).index = 0 ∧ (List.replicate 26 (0x01 : Byte)).length = 26 ∧
    (List.replicate 26 (0x01 : Byte)).set 25
        ((List.replicate 26 (0x01 : Byte))[25]'(by decide) ^^^ BitVec.twoPow 8 7) =
      List.replicate 25 0x01 ++ [0x81] := by decide
theorem witness_ShortFrameExposesStaleBytes :
    (List.replicate 18 (0x01 : Byte)).length = 18 ∧ (busy 0 0 0 0 []).index = 0 := by decide
/-- Garbage of an odd and of an even trailing run. -/
theorem witness_GarbageThenFrame :
    (busy 0 0 0 0 []).index = 0 ∧
    (([0x00, 0x42] : List Byte).reverse.takeWhile (· == 0x42)).length % 2 = 1 ∧
    (([0xFF, 0x42, 0x42] : List Byte).reverse.takeWhile (· == 0x42)).length % 2 = 0 ∧
    (List.replicate 18 (0x01 : Byte)).length = 18 ∧ (position 1 0 0x0042 0 []).index = 1 := by decide
theorem witness_GarbageThenFrame_odd_holds_no_header :
    ∀ n : Nat, ¬(([0x00, 0x42] : List Byte)[n]? = some 0x42 ∧ ([0x00, 0x42] : List Byte)[n + 1]? = some 0x4D) := by
  rintro (_ | _ | n) <;> simp
theorem witness_GarbageThenFrame_even_holds_no_header :
    ∀ n : Nat, ¬(([0xFF, 0x42, 0x42] : List Byte)[n]? = some 0x42 ∧
      ([0xFF, 0x42, 0x42] : List Byte)[n + 1]? = some 0x4D) := by
  rintro (_ | _ | _ | n) <;> simp
theorem witness_LengthFieldDecidesVariant :
    (busy 0 0 0 0 []).index = 0 ∧ (0x00#8 ++ 0x14#8 : Half) = 20 ∧ (0x00#8 ++ 0x1C#8 : Half) = 28 ∧
    ¬((0x01#8 ++ 0x14#8 : Half) = 20 ∨ (0x01#8 ++ 0x14#8 : Half) = 28) := by decide
theorem witness_IdleStepsChangeOnlyFlags :
    feed [0x42] = ([.idle, .byte 0x42, ⟨false, false, 0x4D⟩] : List StepInput).filter (fun x => !x.isIdle) ∧
    (∃ t, runWith [.idle, .byte 0x42, ⟨false, false, 0x4D⟩] (busy 0 0 0 0 []) = .next t) ∧
    ∃ u, runWith (feed [0x42]) (busy 0 0 0 0 []) = .next u :=
  ⟨by decide, ⟨_, rfl⟩, ⟨_, rfl⟩⟩
theorem witness_ReadingHoldsBetweenFrames :
    (∃ t, runWith [.byte 0x42, .byte 0x4D] (busy 0 0 0 0 []) = .next t) ∧
    (∀ x ∈ [StepInput.byte 0x42, .byte 0x4D], x.rst = false) ∧
    6 ∉ events [.byte 0x42, .byte 0x4D] (busy 0 0 0 0 []) :=
  ⟨⟨_, rfl⟩, by decide, by decide⟩

end Sys2Proof.Tests
end

section
/-! PROOFS. State and invariants (10_state.md): where R78 selects an operation, what each register holds after one, and
the invariants of R29, R77, R80 and R136 along every step and every run. -/

namespace Sys2Proof.Proofs

open Sys2Proof Sys2Proof.Machine Sys2Proof.Laws

/-! ### From a step to the operation that makes it -/

/-- The part of an operation's row in R78 that speaks of `index` and the length, with R71's phases written out. -/
def AtPosition (s : State) : Instr → Prop
  | .reset | .idle => True
  | .h1Match | .h1Discard _ => s.index.toNat = 0
  | .h2Match | .h2Resync _ => s.index.toNat = 1
  | .lenHi _ => s.index.toNat = 2
  | .lenLoOk d => s.index.toNat = 3 ∧ validLen (lengthWith s.frameLen d) = true
  | .lenLoBad _ => s.index.toNat = 3
  | .payloadStore _ | .payloadSkip _ =>
    validLen s.frameLen = true ∧ 4 ≤ s.index.toNat ∧ s.index.toNat ≤ s.frameLen.toNat + 1
  | .csumHi _ => validLen s.frameLen = true ∧ s.index.toNat = s.frameLen.toNat + 2
  | .csumLoOk _ | .csumLoBad _ => validLen s.frameLen = true ∧ s.index.toNat = s.frameLen.toNat + 3
  | .phaseInvalid _ =>
    4 ≤ s.index.toNat ∧ (validLen s.frameLen = false ∨ s.frameLen.toNat + 3 < s.index.toNat)

/-- Phase 7 of R71, beside the model's own lemmas on the other phases. -/
theorem phaseOf_none (index : Index) (frameLen : Half) :
    phaseOf index frameLen = .none ↔
      4 ≤ index.toNat ∧ (validLen frameLen = false ∨ frameLen.toNat + 3 < index.toNat) := by
  cases hv : validLen frameLen
  · simp only [phaseOf, hv, if_true]
    split_ifs <;> simp <;> omega
  · have := toNat_of_validLen hv
    simp only [phaseOf, hv, Bool.true_eq_false, if_false]
    split_ifs <;> simp <;> omega

variable {s t : State} {x : StepInput} {i : Instr} {d : Byte}

/-- R78 selects an operation only at its position in the frame. -/
theorem atPosition_of_operationFor (h : s.operationFor x = .ok i) : AtPosition s i := by
  rw [operationFor_eq, Except.ok.injEq] at h
  subst h
  obtain ⟨h0, h1, h2, h3⟩ := phaseOf_header s.index s.frameLen
  unfold operationOf
  split
  · trivial
  split
  · trivial
  split
  next hp => split <;> exact h0.1 hp
  next hp => split <;> exact h1.1 hp
  next hp => exact h2.1 hp
  next hp =>
    split
    next hlen => exact ⟨h3.1 hp, hlen⟩
    next => exact h3.1 hp
  next hp => split <;> exact (phaseOf_payload _ _).1 hp
  next hp => exact (phaseOf_checksumHigh _ _).1 hp
  next hp => split <;> exact (phaseOf_checksumLow _ _).1 hp
  next hp => exact (phaseOf_none _ _).1 hp

/-- R100 read backwards: a step that completes is the meaning of the operation R78 selects. -/
theorem exists_operation_of_stepWith (h : stepWith x s = .next t) :
    ∃ i, s.operationFor x = .ok i ∧ exec i s = .next t :=
  ⟨_, operationFor_eq s x, by rwa [stepWith_of_operationFor s (operationFor_eq s x)] at h⟩

/-- An offered byte never selects `IDLE`. -/
theorem operationFor_byte_ne_idle (h : s.operationFor (.byte d) = .ok i) : i ≠ .idle := by
  rw [operationFor_byte, Except.ok.injEq] at h
  subst h
  cases s.phase with
  | lenHigh | checksumHigh | none => nofun
  | _ =>
    simp only [operationOf, Bool.false_eq_true, if_false, Bool.not_true]
    split <;> nofun

/-! ### What a completing operation leaves in each register (10_state.md R20) -/

theorem exec_frameLen_eq (h : exec i s = .next t) (hr : i ≠ .reset)
    (hw : ∀ d, i ≠ .lenHi d ∧ i ≠ .lenLoOk d ∧ i ≠ .lenLoBad d) : t.frameLen = s.frameLen := by
  cases i with
  | phaseInvalid d => exact absurd h fault_ne_next
  | reset => exact absurd rfl hr
  | lenHi d => exact absurd rfl (hw d).1
  | lenLoOk d => exact absurd rfl (hw d).2.1
  | lenLoBad d => exact absurd rfl (hw d).2.2
  | _ => exact next_inj.1 h ▸ rfl

theorem exec_calcSum_eq (h : exec i s = .next t) (hr : i ≠ .reset) (h1 : i ≠ .h1Match) (h2 : i ≠ .h2Match)
    (hw : ∀ d, i ≠ .lenHi d ∧ i ≠ .lenLoOk d ∧ i ≠ .payloadStore d ∧ i ≠ .payloadSkip d) :
    t.calcSum = s.calcSum := by
  cases i with
  | phaseInvalid d => exact absurd h fault_ne_next
  | reset => exact absurd rfl hr
  | h1Match => exact absurd rfl h1
  | h2Match => exact absurd rfl h2
  | lenHi d => exact absurd rfl (hw d).1
  | lenLoOk d => exact absurd rfl (hw d).2.1
  | payloadStore d => exact absurd rfl (hw d).2.2.1
  | payloadSkip d => exact absurd rfl (hw d).2.2.2
  | _ => exact next_inj.1 h ▸ rfl

theorem exec_rxCsum_eq (h : exec i s = .next t) (hr : i ≠ .reset)
    (hw : ∀ d, i ≠ .csumHi d ∧ i ≠ .csumLoOk d ∧ i ≠ .csumLoBad d) : t.rxCsum = s.rxCsum := by
  cases i with
  | phaseInvalid d => exact absurd h fault_ne_next
  | reset => exact absurd rfl hr
  | csumHi d => exact absurd rfl (hw d).1
  | csumLoOk d => exact absurd rfl (hw d).2.1
  | csumLoBad d => exact absurd rfl (hw d).2.2
  | _ => exact next_inj.1 h ▸ rfl

theorem exec_rd_eq (h : exec i s = .next t) (hr : i ≠ .reset) (hw : ∀ d, i ≠ .csumLoOk d) : t.rd = s.rd := by
  cases i with
  | phaseInvalid d => exact absurd h fault_ne_next
  | reset => exact absurd rfl hr
  | csumLoOk d => exact absurd rfl (hw d)
  | _ => exact next_inj.1 h ▸ rfl

theorem exec_buf_eq (h : exec i s = .next t) (hr : i ≠ .reset) (hw : ∀ d, i ≠ .payloadStore d) : t.buf = s.buf := by
  cases i with
  | phaseInvalid d => exact absurd h fault_ne_next
  | reset => exact absurd rfl hr
  | payloadStore d => exact absurd rfl (hw d)
  | _ => exact next_inj.1 h ▸ rfl

/-- No operation, `RESET` included, touches the host's queue (log entry 1). -/
theorem exec_inputs_eq (h : exec i s = .next t) : t.inputs = s.inputs := by
  cases i with
  | phaseInvalid d => exact absurd h fault_ne_next
  | _ => exact next_inj.1 h ▸ rfl

theorem exec_index_eq (h : exec i s = .next t) (hk : i = .idle ∨ ∃ d, i = .h1Discard d) : t.index = s.index := by
  obtain rfl | ⟨d, rfl⟩ := hk <;> exact next_inj.1 h ▸ rfl

/-- The one write of both flags that every operation makes (R100): `CSUM_LO_OK` writes `ok` with its own event, every
other operation `waiting` with another. -/
theorem exec_flags (h : exec i s = .next t) :
    ((∃ d, i = .csumLoOk d) ∧ t.status = ok ∧ t.event = Event.frameOk.code) ∨
      ((∀ d, i ≠ .csumLoOk d) ∧ t.status = waiting ∧ ∃ e : Event, e ≠ .frameOk ∧ t.event = e.code) := by
  cases i with
  | phaseInvalid d => exact absurd h fault_ne_next
  | csumLoOk d => exact next_inj.1 h ▸ .inl ⟨⟨d, rfl⟩, rfl, rfl⟩
  | reset | idle => exact next_inj.1 h ▸ .inr ⟨nofun, rfl, .idle, nofun, rfl⟩
  | h1Discard d => exact next_inj.1 h ▸ .inr ⟨nofun, rfl, .hunt, nofun, rfl⟩
  | h2Resync d => exact next_inj.1 h ▸ .inr ⟨nofun, rfl, .badMagic2, nofun, rfl⟩
  | lenLoBad d => exact next_inj.1 h ▸ .inr ⟨nofun, rfl, .badLen, nofun, rfl⟩
  | csumLoBad d => exact next_inj.1 h ▸ .inr ⟨nofun, rfl, .badCsum, nofun, rfl⟩
  | _ => exact next_inj.1 h ▸ .inr ⟨nofun, rfl, .accept, nofun, rfl⟩

/-- Neither flag is read by an operation, and every operation writes both (R27). -/
theorem exec_of_other_flags (h : exec i s = .next t) (st : BitVec 1) (ev : BitVec 3) :
    exec i { s with status := st, event := ev } = .next t := by
  cases i with
  | phaseInvalid d => exact absurd h fault_ne_next
  | _ => exact h

/-- `index + 1` does not wrap inside a frame of valid length. -/
theorem toNat_index_add_one {index : Index} {n : Half} (hv : validLen n = true) (h : index.toNat ≤ n.toNat + 2) :
    (index + 1).toNat = index.toNat + 1 := by
  have := toNat_of_validLen hv
  exact BitVec.toNat_add_of_lt (by simp; omega)

/-- An operation at its position, `IDLE` aside, advances `index` inside the header or before the last checksum byte, or
sets it to 0. -/
theorem exec_index (hp : AtPosition s i) (hi : i ≠ .idle) (h : exec i s = .next t) :
    (t.index.toNat = s.index.toNat + 1 ∧ (s.index.toNat ≤ 3 ∨ s.index.toNat ≤ s.frameLen.toNat + 2)) ∨
      t.index = 0 := by
  cases i with
  | phaseInvalid d => exact absurd h fault_ne_next
  | idle => exact absurd rfl hi
  | h1Discard d => exact .inr (next_inj.1 h ▸ BitVec.eq_of_toNat_eq hp)
  | h1Match | h2Match | lenHi | lenLoOk =>
    obtain rfl := next_inj.1 h
    simp only [AtPosition] at hp
    simp [hp]
  | payloadStore d | payloadSkip d =>
    obtain rfl := next_inj.1 h
    obtain ⟨hv, -, hle⟩ := hp
    have hle' := Nat.le_succ_of_le hle
    exact .inl ⟨toNat_index_add_one hv hle', .inr hle'⟩
  | csumHi d =>
    obtain rfl := next_inj.1 h
    obtain ⟨hv, heq⟩ := hp
    exact .inl ⟨toNat_index_add_one hv heq.le, .inr heq.le⟩
  | _ => exact .inr (next_inj.1 h ▸ rfl)

/-! ### The index invariant (10_state.md R29) -/

theorem insideFrame_of_indexInv (h : s.indexInv) : s.insideFrame := by
  obtain h | ⟨-, -, h⟩ := h <;> exact (by omega : s.index.toNat < s.frameLen.toNat + 4)

theorem phase_ne_none_of_indexInv (h : s.indexInv) : s.phase ≠ .none := by
  intro hp
  obtain ⟨h4, hout⟩ := (phaseOf_none _ _).1 hp
  obtain h | ⟨hlen, -, hle⟩ := h
  · omega
  · have hv : validLen s.frameLen = true := (validLen_iff _).2 hlen
    obtain hout | hout := hout
    · simp [hv] at hout
    · omega

/-- Moving on by one byte before the last checksum byte keeps the index inside the frame. -/
theorem indexInv_of_advance (hn : t.frameLen = s.frameLen) (hi : t.index = s.index + 1)
    (hv : validLen s.frameLen = true) (h4 : 4 ≤ s.index.toNat) (hle : s.index.toNat ≤ s.frameLen.toNat + 2) :
    t.indexInv := by
  have hi' : t.index.toNat = s.index.toNat + 1 := hi ▸ toNat_index_add_one hv hle
  refine .inr ⟨?_, by omega, by rw [hn]; omega⟩
  rw [hn]
  exact (validLen_iff _).1 hv

theorem exec_keeps_indexInv (hp : AtPosition s i) (h : exec i s = .next t) (hs : s.indexInv) : t.indexInv := by
  cases i with
  | phaseInvalid d => exact absurd h fault_ne_next
  | idle | h1Discard d => exact next_inj.1 h ▸ hs
  | lenLoOk d =>
    obtain rfl := next_inj.1 h
    have := toNat_of_validLen hp.2
    have hle : 4 ≤ (lengthWith s.frameLen d).toNat + 3 := by omega
    exact .inr ⟨(validLen_iff _).1 hp.2, le_rfl, hle⟩
  | payloadStore d | payloadSkip d =>
    obtain rfl := next_inj.1 h
    obtain ⟨hv, h4, hle⟩ := hp
    exact indexInv_of_advance (s := s) rfl rfl hv h4 (by omega)
  | csumHi d =>
    obtain rfl := next_inj.1 h
    obtain ⟨hv, heq⟩ := hp
    have := toNat_of_validLen hv
    exact indexInv_of_advance (s := s) rfl rfl hv (by omega) heq.le
  | _ =>
    obtain rfl := next_inj.1 h
    exact .inl (by simp)

/-! ### The flag invariant (R77, R80) -/

theorem exec_flagsInv (h : exec i s = .next t) : t.flagsInv := by
  obtain ⟨-, hst, hev⟩ | ⟨-, hst, e, he, hev⟩ := exec_flags h
  · simp [State.flagsInv, hst, hev, ok, Event.code]
  · have he6 : e.code ≠ 6 := fun h6 => he (event_code_injective h6)
    rw [← hev] at he6
    exact ⟨iff_of_false (by simp [hst, waiting]) he6, hev ▸ event_code_ne_reserved e⟩

/-! ### The sum invariant (R136) -/

theorem sumInv_of_index_zero (h : s.index.toNat = 0) : s.sumInv := by
  simp [State.sumInv, h]

theorem sumInv_iff_of_index_one (h : s.index.toNat = 1) : s.sumInv ↔ s.calcSum = 0x0042 := by
  simp [State.sumInv, h]

theorem sumInv_iff_of_index_two (h : s.index.toNat = 2) : s.sumInv ↔ s.calcSum = 0x008F := by
  simp [State.sumInv, h]

theorem sumInv_iff_of_index_three (h : s.index.toNat = 3) :
    s.sumInv ↔ s.frameLen.toNat % 256 = 0 ∧ s.calcSum.toNat = 0x8F + s.frameLen.toNat / 256 := by
  simp [State.sumInv, h]

theorem sumInv_iff_of_header_past (h : 4 ≤ s.index.toNat) :
    s.sumInv ↔
      s.calcSum.toNat ≤ 0x8F + s.frameLen.toNat + 255 * (min s.index.toNat (s.frameLen.toNat + 2) - 4) :=
  ⟨fun hs => hs.2.2.2 h, fun hle => ⟨by omega, by omega, by omega, fun _ => hle⟩⟩

theorem toNat_add_zext16_le (v : Half) (b : Byte) : (v + zext16 b).toNat ≤ v.toNat + b.toNat := by
  rw [BitVec.toNat_add, toNat_zext16]
  exact Nat.mod_le _ _

/-- A payload byte adds at most `0xFF` to the sum. -/
theorem sumInv_of_payload_byte (hn : t.frameLen = s.frameLen) (hi : t.index = s.index + 1)
    (hc : t.calcSum = s.calcSum + zext16 d) (hv : validLen s.frameLen = true) (h4 : 4 ≤ s.index.toNat)
    (hle : s.index.toNat ≤ s.frameLen.toNat + 1) (hs : s.sumInv) : t.sumInv := by
  have hi' : t.index.toNat = s.index.toNat + 1 := hi ▸ toNat_index_add_one hv (by omega)
  have hb := (sumInv_iff_of_header_past h4).1 hs
  have hadd := toNat_add_zext16_le s.calcSum d
  have hd := d.isLt
  rw [sumInv_iff_of_header_past (by omega), hi', hn, hc]
  omega

theorem exec_keeps_sumInv (hp : AtPosition s i) (h : exec i s = .next t) (hs : s.sumInv) : t.sumInv := by
  cases i with
  | phaseInvalid d => exact absurd h fault_ne_next
  | idle | h1Discard d => exact next_inj.1 h ▸ hs
  | h1Match =>
    obtain rfl := next_inj.1 h
    exact (sumInv_iff_of_index_one rfl).2 rfl
  | h2Match =>
    obtain rfl := next_inj.1 h
    have hc := (sumInv_iff_of_index_one hp).1 hs
    exact (sumInv_iff_of_index_two rfl).2 (by simp [hc, zext16, Config.magic1])
  | lenHi d =>
    obtain rfl := next_inj.1 h
    have hc := (sumInv_iff_of_index_two hp).1 hs
    have hlen : (bigEndian d 0x00).toNat = 256 * d.toNat := by simp [toNat_bigEndian]
    have hsum : (s.calcSum + zext16 d).toNat = 0x8F + d.toNat := by
      have := d.isLt
      rw [hc, BitVec.toNat_add_of_lt] <;> simp
      omega
    refine (sumInv_iff_of_index_three rfl).2 ?_
    change (bigEndian d 0x00).toNat % 256 = 0 ∧
      (s.calcSum + zext16 d).toNat = 0x8F + (bigEndian d 0x00).toNat / 256
    omega
  | lenLoOk d =>
    obtain rfl := next_inj.1 h
    obtain ⟨h3, hv⟩ := hp
    obtain ⟨-, hc⟩ := (sumInv_iff_of_index_three h3).1 hs
    have hlen : (lengthWith s.frameLen d).toNat = 256 * (s.frameLen.toNat / 256) + d.toNat := by
      rw [lengthWith, toNat_bigEndian, toNat_highByte]
    have := toNat_of_validLen hv
    have hadd := toNat_add_zext16_le s.calcSum d
    refine (sumInv_iff_of_header_past (by simp)).2 ?_
    change (s.calcSum + zext16 d).toNat ≤
      0x8F + (lengthWith s.frameLen d).toNat + 255 * (min 4 ((lengthWith s.frameLen d).toNat + 2) - 4)
    omega
  | payloadStore d | payloadSkip d =>
    obtain rfl := next_inj.1 h
    obtain ⟨hv, h4, hle⟩ := hp
    exact sumInv_of_payload_byte (s := s) rfl rfl rfl hv h4 hle hs
  | csumHi d =>
    obtain rfl := next_inj.1 h
    obtain ⟨hv, heq⟩ := hp
    have := toNat_of_validLen hv
    have hadd := toNat_index_add_one hv heq.le
    have hb := (sumInv_iff_of_header_past (by omega)).1 hs
    refine (sumInv_iff_of_header_past (hadd ▸ by omega)).2 ?_
    change s.calcSum.toNat ≤
      0x8F + s.frameLen.toNat + 255 * (min (s.index + 1).toNat (s.frameLen.toNat + 2) - 4)
    omega
  | _ =>
    obtain rfl := next_inj.1 h
    exact sumInv_of_index_zero rfl

/-! ### Steps and runs -/

/-- Inside the index range a step completes (R29, R207). -/
theorem stepWith_completes_of_indexInv (hs : s.indexInv) (x : StepInput) : ∃ t, stepWith x s = .next t := by
  have hop := operationFor_eq s x
  rw [stepWith_of_operationFor s hop]
  obtain hnext | ⟨d, hd, -⟩ := exec_cases s _
  · exact hnext
  · rw [hd] at hop
    exact absurd ((phaseOf_none _ _).2 (atPosition_of_operationFor hop)) (phase_ne_none_of_indexInv hs)

/-- Settles O24: each operation, at the position where R78 selects it, keeps each invariant. -/
theorem stepKeepsInvariants : Obligations.StepKeepsInvariants := by
  intro s t h
  obtain ⟨i, hop, he⟩ := exists_operation_of_stepWith h
  have hp := atPosition_of_operationFor hop
  have hindex : s.indexInv → t.indexInv := exec_keeps_indexInv (s := s.consumeInput) hp he
  have hsum : s.sumInv → t.sumInv := exec_keeps_sumInv (s := s.consumeInput) hp he
  exact ⟨fun hs => ⟨hindex hs, insideFrame_of_indexInv (hindex hs)⟩, exec_flagsInv he, hsum⟩

theorem step_keeps_inv (h : step s = .next t) (hs : s.inv) : t.inv := by
  obtain ⟨hindex, -, -, hsum⟩ := hs
  obtain ⟨kindex, kflags, ksum⟩ := stepKeepsInvariants s t h
  exact ⟨(kindex hindex).1, (kindex hindex).2, kflags, ksum hsum⟩

theorem reset_inv : State.reset.inv := by decide

/-- Settles O25: the invariants speak of registers alone, and the queue is none. -/
theorem resetMeetsInvariants : Obligations.ResetMeetsInvariants := fun _ => reset_inv

/-- A run from a state that meets the invariants never stops and goes on meeting them. -/
theorem run_completes_of_inv (k : Nat) (hs : s.inv) : ∃ t, run k s = .next t ∧ t.inv := by
  induction k generalizing s with
  | zero => exact ⟨s, rfl, hs⟩
  | succ k ih =>
    obtain ⟨u, hu⟩ : ∃ u, step s = .next u := stepWith_completes_of_indexInv (s := s.consumeInput) hs.1 _
    rw [run_succ s k hu]
    exact ih (step_keeps_inv hu hs)

/-- Settles O26, by induction on the number of steps. -/
theorem runsFromResetNeverStop : Obligations.RunsFromResetNeverStop := by
  intro ins k
  obtain ⟨t, hrun, hinv⟩ := run_completes_of_inv k (resetMeetsInvariants ins)
  exact ⟨t, hrun, hinv, phase_ne_none_of_indexInv hinv.1⟩

/-! ### What a step writes -/

/-- Settles O28: no operation but `IDLE` leaves a non-zero `index` as it is, and at the last checksum byte none
advances it. -/
theorem indexAdvancesOrClears : Obligations.IndexAdvancesOrClears := by
  intro s t d h
  obtain ⟨i, hop, he⟩ := exists_operation_of_stepWith h
  obtain ⟨hadv, hbefore⟩ | hzero := exec_index (atPosition_of_operationFor hop) (operationFor_byte_ne_idle hop) he
  · exact ⟨.inl hadv, by omega⟩
  · exact ⟨.inr hzero, fun _ _ => hzero⟩

/-- `CSUM_LO_OK` writes 1 (`ok`) and every other operation 0 (`waiting`). -/
theorem status_of_stepWith (h : stepWith x s = .next t) :
    ((∃ d, s.operationFor x = .ok (.csumLoOk d)) → t.status = ok) ∧
      ((∀ d, s.operationFor x ≠ .ok (.csumLoOk d)) → t.status = waiting) := by
  obtain ⟨i, hop, he⟩ := exists_operation_of_stepWith h
  simp only [hop, Except.ok.injEq, ne_eq]
  obtain ⟨hi, hst, -⟩ | ⟨hi, hst, -⟩ := exec_flags he
  · exact ⟨fun _ => hst, fun hno => absurd hi (not_exists.2 hno)⟩
  · exact ⟨fun hex => absurd hex (not_exists.2 hi), fun _ => hst⟩

theorem index_eq_zero_of_status_ok (h : stepWith x s = .next t) (hok : t.status = ok) : t.index = 0 := by
  obtain ⟨i, -, he⟩ := exists_operation_of_stepWith h
  obtain ⟨⟨d, rfl⟩, -⟩ | ⟨-, hwaiting, -⟩ := exec_flags he
  · exact next_inj.1 he ▸ rfl
  · exact absurd (hok.symm.trans hwaiting) (by decide)

/-- The last checksum byte of a frame is not at `index = 0`. -/
theorem operationFor_ne_csumLoOk_of_index_zero (h : s.index = 0) (d : Byte) :
    s.operationFor x ≠ .ok (.csumLoOk d) := by
  intro hop
  obtain ⟨-, hlast⟩ := atPosition_of_operationFor hop
  simp [h] at hlast

/-- Settles O29: `CSUM_LO_OK` leaves `index = 0`, where the next step selects another operation. -/
theorem statusSetOnlyByCsumLoOk : Obligations.StatusSetOnlyByCsumLoOk := by
  refine ⟨fun s t x => status_of_stepWith, fun s t u x y hst htu hok => ?_⟩
  have hindex := index_eq_zero_of_status_ok hst hok
  exact (status_of_stepWith htu).2 (operationFor_ne_csumLoOk_of_index_zero hindex)

/-- Settles O31: the decoder and the operations read no flag, and each operation overwrites both. -/
theorem flagsDoNotInfluenceStep : Obligations.FlagsDoNotInfluenceStep := by
  intro s t x st ev h
  obtain ⟨i, hop, he⟩ := exists_operation_of_stepWith h
  have hop' : State.operationFor { s with status := st, event := ev } x = .ok i := hop
  rw [stepWith_of_operationFor _ hop']
  exact exec_of_other_flags he st ev

/-- Settles O32, a register at a time. -/
theorem registersHaveNamedWriters : Obligations.RegistersHaveNamedWriters := by
  intro i s t h hr
  exact ⟨exec_frameLen_eq h hr, fun ⟨h1, h2, hw⟩ => exec_calcSum_eq h hr h1 h2 hw, exec_rxCsum_eq h hr,
    exec_rd_eq h hr, exec_index_eq h, exec_inputs_eq h⟩

/-- `PAYLOAD_STORE` on the buffer: the byte at the store offset and no other (R53, R130). -/
theorem exec_payloadStore_bufByte (h : exec (.payloadStore d) s = .next t) (k : Fin Config.payloadCap) :
    t.bufByte k = if s.storeOffset = k.val then d else s.bufByte k := by
  obtain rfl := next_inj.1 h
  exact bufByte_storeByte s _ d k

/-- Settles O33: the buffer's read after the one write to it, R53's offset, and the frame of `buf`. -/
theorem bufferChangesAtStoredByte : Obligations.BufferChangesAtStoredByte := by
  refine ⟨fun d s t h k => ?_, fun s => payloadOffset_of_le, fun i s t h hr hw k => ?_⟩
  · rw [exec_payloadStore_bufByte h k]
    exact ⟨fun hk => if_pos hk.symm, fun hk => if_neg (Ne.symm hk)⟩
  · simp only [State.bufByte, exec_buf_eq h hr hw]

/-- Settles O39: each port is defined as its register (R34). -/
theorem outputsAreRegisters : Obligations.OutputsAreRegisters :=
  fun _ => ⟨rfl, rfl, rfl, rfl, rfl, rfl, rfl, rfl, rfl, rfl, rfl⟩

end Sys2Proof.Proofs
end

section
/-! PROOFS. Memory (20_memory.md): the Reading is written whole or not at all, and the host's queue of inputs is consumed
in order, one per step. -/

namespace Sys2Proof.Proofs

open Sys2Proof Sys2Proof.Machine Sys2Proof.Laws

variable {s t : State} {x : StepInput} {i : Instr}

/-! ### The Reading -/

/-- `rst = 1` selects `RESET` whatever else is on the ports, and nothing else does (R78 row 1). -/
theorem operationFor_eq_reset_iff : s.operationFor x = .ok .reset ↔ x.rst = true := by
  rw [operationFor_eq, Except.ok.injEq]
  cases hr : x.rst with
  | true => exact iff_of_true rfl rfl
  | false =>
    refine iff_of_false ?_ Bool.false_ne_true
    cases x.inValid with
    | false => nofun
    | true =>
      simp only [operationOf, Bool.false_eq_true, if_false, Bool.not_true]
      cases s.phase with
      | lenHigh | checksumHigh | none => nofun
      | _ => dsimp only; split <;> nofun

/-- Settles O34: of the operations that complete, `CSUM_LO_OK` writes the extractor's whole value, `RESET` writes the whole
reset value, and no other writes the Reading. -/
theorem readingUpdatesAtOnce : Obligations.ReadingUpdatesAtOnce := by
  intro s t x h
  obtain ⟨i, hop, he⟩ := exists_operation_of_stepWith h
  refine ⟨fun ⟨d, hd⟩ => ?_, fun hrst j => ?_, fun hrst hno => ?_⟩
  · obtain rfl : i = .csumLoOk d := Except.ok.inj (hop.symm.trans hd)
    obtain rfl := next_inj.1 he
    exact ⟨rfl, fun _ => rfl⟩
  · obtain rfl : i = .reset := Except.ok.inj (hop.symm.trans (operationFor_eq_reset_iff.2 hrst))
    obtain rfl := next_inj.1 he
    exact Vector.getElem_replicate _
  · refine exec_rd_eq he (fun hi => ?_) (fun d hi => hno d (hi ▸ hop))
    exact Bool.false_ne_true (hrst.symm.trans (operationFor_eq_reset_iff.1 (hi ▸ hop)))

/-! ### The queue of inputs -/

/-- A run of `k + 1` steps that completes is a completing step and a run of `k` steps from there. -/
theorem exists_step_of_run_succ {k : Nat} (h : run (k + 1) s = .next t) :
    ∃ u, step s = .next u ∧ run k u = .next t := by
  rw [run] at h
  cases hs : step s with
  | next u => exact ⟨u, rfl, by simpa only [hs] using h⟩
  | fault f => simp [hs] at h
  | refused r => simp [hs] at h

/-- A stream that completes is a completing step on its first input and the rest of the stream from there. -/
theorem exists_stepWith_of_runWith_cons {xs : List StepInput} (h : runWith (x :: xs) s = .next t) :
    ∃ u, stepWith x s = .next u ∧ runWith xs u = .next t := by
  rw [runWith] at h
  cases hs : stepWith x s with
  | next u => exact ⟨u, rfl, by simpa only [hs] using h⟩
  | fault f => simp [hs] at h
  | refused r => simp [hs] at h

/-- A step takes one input off the queue, its first. -/
theorem step_inputs_eq (h : step s = .next t) : t.inputs = s.inputs.tail := by
  obtain ⟨i, -, he⟩ := exists_operation_of_stepWith h
  exact exec_inputs_eq he

/-- No operation reads the queue: with another queue it does the same to the registers. -/
theorem exec_of_other_inputs (h : exec i s = .next t) (q : List StepInput) :
    exec i { s with inputs := q } = .next { t with inputs := q } := by
  cases i with
  | phaseInvalid d => exact absurd h fault_ne_next
  | _ => exact next_inj.1 h ▸ rfl

/-- The spec's step on `x` is the step on a queue that begins with `x`, and leaves the rest of that queue. -/
theorem step_of_stepWith (h : stepWith x s = .next t) (q : List StepInput) :
    step { s with inputs := x :: q } = .next { t with inputs := q } := by
  obtain ⟨i, hop, he⟩ := exists_operation_of_stepWith h
  have hop' : State.operation { s with inputs := x :: q } = .ok i := hop
  rw [step_of_operation _ hop']
  exact exec_of_other_inputs he q

theorem run_inputs_eq {k : Nat} (h : run k s = .next t) : t.inputs = s.inputs.drop k := by
  induction k generalizing s with
  | zero => exact next_inj.1 h ▸ rfl
  | succ k ih =>
    obtain ⟨u, hu, hrun⟩ := exists_step_of_run_succ h
    rw [ih hrun, step_inputs_eq hu, List.drop_tail]

/-- A stream's run is the run of as many steps on a queue that begins with it, and leaves the rest of that queue. -/
theorem run_of_runWith {xs : List StepInput} (h : runWith xs s = .next t) (rest : List StepInput) :
    run xs.length { s with inputs := xs ++ rest } = .next { t with inputs := rest } := by
  induction xs generalizing s with
  | nil => exact next_inj.1 h ▸ rfl
  | cons x xs ih =>
    obtain ⟨u, hu, hrun⟩ := exists_stepWith_of_runWith_cons h
    exact (run_succ _ xs.length (step_of_stepWith hu (xs ++ rest))).trans (ih hrun)

/-- Settles O35, by induction on the number of steps and on the stream. -/
theorem oneInputPerStep : Obligations.OneInputPerStep :=
  ⟨fun _ _ _ => run_inputs_eq, fun _ rest _ _ h => run_of_runWith h rest⟩

end Sys2Proof.Proofs
end

section
/-! PROOFS. Encoding (30_encoding.md): the encoder and the decoder undo each other, the rows of R78 exclude each other,
the phase codes of R71, placed words, the event codes of R76, and a whole frame's checksum (R72, R74). -/

namespace Sys2Proof.Proofs

open Sys2Proof Sys2Proof.Machine Sys2Proof.Laws
open Sys2Proof.Laws.RowWord (rowIndex word_matches)

variable {s t : State} {i : Instr} {c : DecodeContext} {d : Byte}

/-! ### The encoder and the decoder -/

/-- The low byte of a valid length is `0x14` or `0x1C`, whatever the high byte (R116). -/
theorem wellFormed_lenLoOk_of_validLen {n : Half} (h : validLen (lengthWith n d) = true) :
    (Instr.lenLoOk d).wellFormed = true := by
  have hlow : d = (lengthWith n d).setWidth 8 := (lowByte_bigEndian _ d).symm
  obtain hn | hn := (validLen_iff _).1 h <;> rw [hn] at hlow <;> subst hlow <;> decide

/-- An encoded operation decodes to itself once the fields of its word name it. -/
theorem decode_encode_of_fields {r v : Bool} {p : Phase} (he : encode i = stepWord r v p.code d)
    (hop : operationOf r v p c.index c.frameLen c.calcSum c.rxCsum d = i) : decode c (encode i) = .ok i := by
  rw [he, decode_stepWord, hop]

theorem decode_encode (hw : i.wellFormed = true) (hc : i.condition c = true) : decode c (encode i) = .ok i := by
  cases i with
  | reset | idle => exact decode_encode_of_fields (p := .seekHeader1) rfl rfl
  | h1Match | h2Match | lenHi | csumHi | phaseInvalid => exact decode_encode_of_fields rfl rfl
  | h1Discard d | h2Resync d => exact decode_encode_of_fields rfl (if_neg (bne_iff_ne.1 hw))
  | lenLoOk d => exact decode_encode_of_fields rfl (if_pos hc)
  | lenLoBad d =>
    have hv : ¬validLen (lengthWith c.frameLen d) = true := by simpa [Instr.condition] using hc
    exact decode_encode_of_fields rfl (if_neg hv)
  | payloadStore d => exact decode_encode_of_fields rfl (if_pos (of_decide_eq_true hc))
  | payloadSkip d => exact decode_encode_of_fields rfl (if_neg (Nat.not_lt.2 (of_decide_eq_true hc)))
  | csumLoOk d => exact decode_encode_of_fields rfl (if_pos (eq_of_beq hc))
  | csumLoBad d => exact decode_encode_of_fields rfl (if_neg (bne_iff_ne.1 hc))

/-- Every condition of R78 is met by some registers; `LEN_LO_OK`'s needs one of its two bytes. -/
theorem exists_condition (hw : i.wellFormed = true) : ∃ c : DecodeContext, i.condition c = true := by
  cases i with
  | lenLoOk d =>
    refine ⟨⟨3, 0x0000, 0, 0⟩, ?_⟩
    obtain h | h := (Bool.or_eq_true _ _).mp hw <;> rw [eq_of_beq h] <;> decide
  | lenLoBad d =>
    have hne : validLen (lengthWith 0x0100 d) = false := by
      cases hv : validLen (lengthWith 0x0100 d) with
      | false => rfl
      | true =>
        have hlen := toNat_of_validLen hv
        rw [lengthWith, toNat_bigEndian, show (highByte 0x0100).toNat = 1 from rfl] at hlen
        omega
    exact ⟨⟨3, 0x0100, 0, 0⟩, congrArg not hne⟩
  | payloadStore d => exact ⟨⟨4, 28, 0, 0⟩, rfl⟩
  | payloadSkip d => exact ⟨⟨28, 28, 0, 0⟩, rfl⟩
  | csumLoOk d => exact ⟨⟨31, 28, checksumWith 0 d, 0⟩, beq_self_eq_true _⟩
  | csumLoBad d => exact ⟨⟨31, 28, checksumWith 0 d + 1, 0⟩, by simp [Instr.condition]⟩
  | _ => exact ⟨⟨0, 0, 0, 0⟩, rfl⟩

/-- Settles O18: the fields of an encoded word name the operation, a row at a time, and each row's condition is met. -/
theorem decodeOfEncode : Obligations.DecodeOfEncode :=
  ⟨fun _ _ => decode_encode, fun _ => exists_condition⟩

/-- The operation that the fields of an offering word name encodes to that word and meets its row's condition. -/
theorem encode_of_operationOf {p : Phase} (h : operationOf false true p c.index c.frameLen c.calcSum c.rxCsum d = i) :
    encode i = stepWord false true p.code d ∧ i.wellFormed = true ∧ i.condition c = true := by
  subst h
  simp only [operationOf, Bool.false_eq_true, if_false, Bool.not_true]
  cases p with
  | lenHigh | checksumHigh | none => exact ⟨rfl, rfl, rfl⟩
  | seekHeader1 | seekHeader2 =>
    dsimp only
    split
    next h => exact ⟨h ▸ rfl, rfl, rfl⟩
    next h => exact ⟨rfl, bne_iff_ne.2 h, rfl⟩
  | lenLow =>
    dsimp only
    split
    next h => exact ⟨rfl, wellFormed_lenLoOk_of_validLen h, h⟩
    next h => exact ⟨rfl, rfl, by simp [Instr.condition, h]⟩
  | payload =>
    dsimp only
    split
    next h => exact ⟨rfl, rfl, decide_eq_true h⟩
    next h => exact ⟨rfl, rfl, decide_eq_true (Nat.not_lt.1 h)⟩
  | checksumLow =>
    dsimp only
    split
    next h => exact ⟨rfl, rfl, beq_iff_eq.2 h⟩
    next h => exact ⟨rfl, rfl, bne_iff_ne.2 h⟩

/-- Settles O19: such a word's phase code is some phase's, so it decodes to what its fields name. -/
theorem encodeOfDecode : Obligations.EncodeOfDecode := by
  intro c p d i h
  obtain ⟨q, rfl⟩ := code_surjective p
  rw [decode_stepWord, Except.ok.injEq] at h
  exact encode_of_operationOf h

/-- Settles O20, a word at a time. -/
theorem specWordsDecode : Obligations.SpecWordsDecode :=
  ⟨rfl, rfl, rfl, rfl, rfl, rfl, rfl, rfl, rfl, rfl, rfl, rfl, rfl, rfl, rfl⟩

/-! ### The rows of R78 -/

/-- Every word has four fields, and its phase code is some phase's. -/
theorem exists_fields (w : StepWord) : ∃ (r v : Bool) (p : Phase) (d : Byte), w = stepWord r v p.code d := by
  obtain ⟨p, hp⟩ := code_surjective (wordPhase w)
  exact ⟨wordRst w, wordValid w, p, wordData w, hp ▸ (stepWord_fields w).symm⟩

theorem stepWord_inj {r v r' v' : Bool} {p p' : BitVec 3} {d d' : Byte} :
    stepWord r v p d = stepWord r' v' p' d' ↔ r = r' ∧ v = v' ∧ p = p' ∧ d = d' := by
  constructor
  · intro h
    exact ⟨by simpa using congrArg wordRst h, by simpa using congrArg wordValid h,
      by simpa using congrArg wordPhase h, by simpa using congrArg wordData h⟩
  · rintro ⟨rfl, rfl, rfl, rfl⟩
    rfl

/-- A row on the control bits of a phase asks for an offered byte in that phase. -/
theorem fields_of_phase_row {r v : Bool} {p : Phase} (q : Phase)
    (h : stepWord r v p.code d &&& 0x1F00 = stepWord false true q.code 0) : r = false ∧ v = true ∧ p = q := by
  have hd : stepWord r v p.code d &&& 0x1F00 = stepWord r v p.code 0 := word_matches _ d
  obtain ⟨hr, hv, hp, -⟩ := stepWord_inj.1 (hd.symm.trans h)
  exact ⟨hr, hv, code_injective hp⟩

/-- A row on the whole word asks for its own byte too. -/
theorem fields_of_word_row {r v : Bool} {p : Phase} (q : Phase) (e : Byte)
    (h : stepWord r v p.code d &&& 0x1FFF = stepWord false true q.code e) :
    r = false ∧ v = true ∧ p = q ∧ d = e := by
  have hw : stepWord r v p.code d &&& 0x1FFF = stepWord r v p.code d := BitVec.and_allOnes
  obtain ⟨hr, hv, hp, hd⟩ := stepWord_inj.1 (hw.symm.trans h)
  exact ⟨hr, hv, code_injective hp, hd⟩

theorem wordRst_and (a b : StepWord) : wordRst (a &&& b) = (wordRst a && wordRst b) := BitVec.getLsbD_and

theorem wordValid_and (a b : StepWord) : wordValid (a &&& b) = (wordValid a && wordValid b) := BitVec.getLsbD_and

/-- `RESET`'s row asks for `rst = 1`. -/
theorem rst_of_reset_row {w : StepWord} (h : w &&& 0x1000 = 0x1000) : wordRst w = true := by
  have hr := congrArg wordRst h
  rwa [wordRst_and, show wordRst 0x1000 = true from rfl, Bool.and_true] at hr

/-- `IDLE`'s row asks for `rst = 0` and `in_valid = 0`. -/
theorem control_of_idle_row {w : StepWord} (h : w &&& 0x1800 = 0x0000) : wordRst w = false ∧ wordValid w = false := by
  have hr := congrArg wordRst h
  have hv := congrArg wordValid h
  rw [wordRst_and, show wordRst 0x1800 = true from rfl, Bool.and_true] at hr
  rw [wordValid_and, show wordValid 0x1800 = true from rfl, Bool.and_true] at hv
  exact ⟨hr, hv⟩

/-- A row on a phase's control bits that encodes its operation in them, under that operation's own condition, builds
what the decoder finds. -/
theorem decode_of_phase_row {r v : Bool} {p : Phase} (q : Phase)
    (h : stepWord r v p.code d &&& 0x1F00 = stepWord false true q.code 0)
    (he : encode i = stepWord false true q.code d) (hw : i.wellFormed = true) (hc : i.condition c = true) :
    decode c (stepWord r v p.code d) = .ok i := by
  obtain ⟨rfl, rfl, rfl⟩ := fields_of_phase_row q h
  exact he ▸ decode_encode hw hc

/-- A row that selects a word is the one the decoder finds, whichever place it has in the map. -/
theorem decode_of_selects {row : Row} (hrow : row ∈ rows) {w : StepWord} (h : row.selects c w = true) :
    decode c w = .ok (row.build (wordData w)) := by
  obtain ⟨r, v, p, d, rfl⟩ := exists_fields w
  rw [Row.selects, wordData_stepWord, Bool.and_eq_true, beq_iff_eq] at h
  rw [wordData_stepWord]
  obtain ⟨hbits, hcond⟩ := h
  simp only [rows, headRows, tailRows, List.cons_append, List.nil_append, List.mem_cons, List.not_mem_nil,
    or_false] at hrow
  obtain rfl | rfl | rfl | rfl | rfl | rfl | rfl | rfl | rfl | rfl | rfl | rfl | rfl | rfl | rfl := hrow
  · obtain rfl : r = true := wordRst_stepWord r v p.code d ▸ rst_of_reset_row hbits
    rw [decode_stepWord]
    rfl
  · obtain ⟨hr, hv⟩ := control_of_idle_row hbits
    obtain rfl : r = false := wordRst_stepWord r v p.code d ▸ hr
    obtain rfl : v = false := wordValid_stepWord false v p.code d ▸ hv
    rw [decode_stepWord]
    rfl
  · obtain ⟨rfl, rfl, rfl, rfl⟩ := fields_of_word_row .seekHeader1 Config.magic0 hbits
    exact decode_encode (i := .h1Match) rfl rfl
  · exact decode_of_phase_row .seekHeader1 hbits rfl hcond rfl
  · obtain ⟨rfl, rfl, rfl, rfl⟩ := fields_of_word_row .seekHeader2 Config.magic1 hbits
    exact decode_encode (i := .h2Match) rfl rfl
  · exact decode_of_phase_row .seekHeader2 hbits rfl hcond rfl
  · exact decode_of_phase_row .lenHigh hbits rfl rfl rfl
  · exact decode_of_phase_row .lenLow hbits rfl (wellFormed_lenLoOk_of_validLen hcond) hcond
  · exact decode_of_phase_row .lenLow hbits rfl rfl hcond
  · exact decode_of_phase_row .payload hbits rfl rfl hcond
  · exact decode_of_phase_row .payload hbits rfl rfl hcond
  · exact decode_of_phase_row .checksumHigh hbits rfl rfl rfl
  · exact decode_of_phase_row .checksumLow hbits rfl rfl hcond
  · exact decode_of_phase_row .checksumLow hbits rfl rfl hcond
  · exact decode_of_phase_row .none hbits rfl rfl rfl

/-- The rows stand in R78's order and build 15 different operations. -/
theorem rowIndex_build (d : Byte) : rows.map (fun row => rowIndex (row.build d)) = List.range 15 := rfl

/-- Settles O21: two rows that select one word would both build the operation it decodes to. -/
theorem rowsExcludeEachOther : Obligations.RowsExcludeEachOther := by
  intro c w
  have hdistinct : rows.Pairwise fun a b => rowIndex (a.build (wordData w)) ≠ rowIndex (b.build (wordData w)) :=
    List.pairwise_map.1 (rowIndex_build (wordData w) ▸ List.nodup_range)
  refine hdistinct.imp_of_mem fun ha hb hne ⟨hsa, hsb⟩ => hne ?_
  exact congrArg rowIndex (Except.ok.inj ((decode_of_selects ha hsa).symm.trans (decode_of_selects hb hsb)))

/-! ### The phase codes of R71 -/

theorem code_eq_iff {index : Index} {n : Half} (p : Phase) : (phaseOf index n).code = p.code ↔ phaseOf index n = p :=
  code_injective.eq_iff

/-- Settles O22: a phase's code is that phase's alone, so each clause is the phase's own condition on `index`. -/
theorem phaseCodesFollowTable : Obligations.PhaseCodesFollowTable := by
  intro index n
  obtain ⟨h0, h1, h2, h3⟩ := phaseOf_header index n
  refine ⟨(code_eq_iff .seekHeader1).trans (h0.trans (index_eq_iff (by decide)).symm),
    (code_eq_iff .seekHeader2).trans (h1.trans (index_eq_iff (by decide)).symm),
    (code_eq_iff .lenHigh).trans (h2.trans (index_eq_iff (by decide)).symm),
    (code_eq_iff .lenLow).trans (h3.trans (index_eq_iff (by decide)).symm), ?_, ?_, ?_, ?_⟩
  · exact (code_eq_iff .payload).trans ((phaseOf_payload index n).trans (and_congr_left' (validLen_iff n)))
  · exact (code_eq_iff .checksumHigh).trans ((phaseOf_checksumHigh index n).trans (and_congr_left' (validLen_iff n)))
  · exact (code_eq_iff .checksumLow).trans ((phaseOf_checksumLow index n).trans (and_congr_left' (validLen_iff n)))
  · refine (code_eq_iff .none).trans ((phaseOf_none index n).trans ?_)
    rw [← validLen_iff, Bool.not_eq_true]

/-! ### Placed words (log entry 5) -/

/-- The registers `enterPhase` sets put the block into the phase asked for, from every state. -/
theorem enterPhase_phase (s : State) (p : Phase) : (s.enterPhase p.code).phase = p := by
  cases p <;> rfl

/-- In that phase they decide a row's condition as `tableContext` does. -/
theorem operationOf_enterPhase (s : State) (p : Phase) (d : Byte) :
    operationOf false true p (s.enterPhase p.code).index (s.enterPhase p.code).frameLen
        (s.enterPhase p.code).calcSum (s.enterPhase p.code).rxCsum d =
      operationOf false true p (tableContext p.code).index (tableContext p.code).frameLen
        (tableContext p.code).calcSum (tableContext p.code).rxCsum d := by
  cases p <;> rfl

/-- The input a placed word stands for is consumed by its own step. -/
theorem consumeInput_placeWord (s : State) (w : StepWord) :
    (s.placeWord w).consumeInput = { s.placeWord w with inputs := s.inputs } := by
  unfold State.placeWord
  split <;> rfl

theorem nextInput_placeWord (s : State) (w : StepWord) : (s.placeWord w).nextInput = inputOf w := by
  unfold State.placeWord
  split <;> rfl

/-- A placed word's step decodes it in the registers of `tableContext`. -/
theorem operation_placeWord (s : State) (w : StepWord) :
    (s.placeWord w).operation = decode (tableContext (wordPhase w)) w := by
  obtain ⟨r, v, p, d, rfl⟩ := exists_fields w
  rw [operation_eq_operationFor, nextInput_placeWord]
  rw [decode_stepWord, operationFor_eq]
  simp only [inputOf, wordRst_stepWord, wordValid_stepWord, wordData_stepWord, wordPhase_stepWord, State.placeWord]
  cases r with
  | true => rfl
  | false =>
    cases v with
    | false => rfl
    | true =>
      simp only [Bool.not_false, Bool.and_true, if_true]
      rw [enterPhase_phase, operationOf_enterPhase]

/-- A table word that decodes to an operation is a step word. -/
theorem decode_of_decodeTableWord {nbits w : Nat} (h : decodeTableWord nbits w = some i) :
    w < 2 ^ 13 ∧ decode (tableContext (wordPhase (BitVec.ofNat 13 w))) (BitVec.ofNat 13 w) = .ok i := by
  rw [decodeTableWord, decodeNat] at h
  split at h
  next hw =>
    obtain ⟨j, hj⟩ := decode_total (tableContext (wordPhase (BitVec.ofNat 13 w))) (BitVec.ofNat 13 w)
    rw [hj] at h ⊢
    exact ⟨hw, congrArg _ (Option.some.inj h)⟩
  next => exact absurd h nofun

/-- Settles O23: the placed word's step finds the word's fields on the ports and its phase in the registers. -/
theorem placedWordIsNextOperation : Obligations.PlacedWordIsNextOperation := by
  intro s nbits w i h
  obtain ⟨hw, hop⟩ := decode_of_decodeTableWord h
  rw [State.withFetchWord, if_pos hw, ← consumeInput_placeWord]
  exact step_of_operation _ ((operation_placeWord s _).trans hop)

/-! ### Event codes (R76) -/

/-- The event R76 gives an operation; `PHASE_INVALID` completes no step and has none. -/
def eventOf : Instr → Option Event
  | .reset | .idle => some .idle
  | .h1Match | .h2Match | .lenHi _ | .lenLoOk _ | .payloadStore _ | .payloadSkip _ | .csumHi _ => some .accept
  | .h1Discard _ => some .hunt
  | .h2Resync _ => some .badMagic2
  | .lenLoBad _ => some .badLen
  | .csumLoBad _ => some .badCsum
  | .csumLoOk _ => some .frameOk
  | .phaseInvalid _ => none

theorem exec_event (h : exec i s = .next t) : ∃ e, eventOf i = some e ∧ t.event = e.code := by
  cases i with
  | phaseInvalid d => exact absurd h fault_ne_next
  | _ => exact next_inj.1 h ▸ ⟨_, rfl, rfl⟩

/-- Settles O30: each clause names operations with one event, and every named event has a code other than 7. -/
theorem eventNamesOperation : Obligations.EventNamesOperation := by
  refine ⟨fun s t i h => ?_, rfl⟩
  obtain ⟨e, he, ht⟩ := exec_event h
  have hcode {e' : Event} (hi : eventOf i = some e') : t.event = e'.code :=
    ht.trans (congrArg _ (Option.some.inj (he.symm.trans hi)))
  refine ⟨?_, ?_, ?_, ?_, ?_, ?_, ?_, ht ▸ event_code_ne_reserved e, by simp [ht]⟩
  · rintro (rfl | rfl) <;> exact hcode rfl
  · rintro (rfl | rfl | ⟨d, rfl | rfl | rfl | rfl | rfl⟩) <;> exact hcode rfl
  all_goals
    rintro ⟨d, rfl⟩
    exact hcode rfl

/-! ### A whole frame (R72, R74) -/

/-- A step on an offered byte in a known phase makes the operation R78 has for it there. -/
theorem stepWith_byte {p : Phase} (hp : s.phase = p)
    (hop : operationOf false true p s.index s.frameLen s.calcSum s.rxCsum d = i) : stepWith (.byte d) s = exec i s := by
  subst hp hop
  exact stepWith_of_operationFor s (operationFor_byte s d)

/-- The three bytes before the length is decided: the header, and any high byte (R111, R113, R115). -/
theorem runWith_header (h0 : s.index = 0) (b : Byte) :
    runWith (feed [Config.magic0, Config.magic1, b]) s = .next
      { s with
        index := 3, frameLen := bigEndian b 0x00, calcSum := byteSum [Config.magic0, Config.magic1, b],
        status := waiting, event := Event.accept.code } := by
  have h1 : stepWith (.byte Config.magic0) s = exec .h1Match s := stepWith_byte ((phase_seekHeader1 s).2 h0) rfl
  rw [feed_cons, runWith_cons s _ h1, feed_cons, runWith_cons _ _ (stepWith_byte ((phase_seekHeader2 _).2 rfl) rfl),
    feed_cons, runWith_cons _ _ (stepWith_byte ((phase_lenHigh _).2 rfl) rfl)]
  rfl

/-- The four bytes before the payload of a frame of length `n`. -/
def headerBytes (n : Half) : List Byte := [Config.magic0, Config.magic1, highByte n, n.setWidth 8]

theorem frameBody_eq {p : List Byte} (hp : p.length = 18 ∨ p.length = 26) :
    frameBody p = headerBytes (BitVec.ofNat 16 (p.length + 2)) ++ p := by
  obtain hp | hp := hp <;> rw [frameBody, hp] <;> rfl

/-- The state inside a frame of length `n`, begun in `s`, after the payload bytes `q`. -/
def inFrame (s : State) (n : Half) (q : List Byte) : State :=
  { s with
    index := BitVec.ofNat 5 (4 + q.length), frameLen := n, calcSum := byteSum (headerBytes n ++ q),
    buf := captured s.buf q, status := waiting, event := Event.accept.code }

variable {n : Half} {p q : List Byte}

theorem byteSum_append (as : List Byte) (b : Byte) : byteSum (as ++ [b]) = byteSum as + zext16 b := by
  simp [byteSum]

theorem captured_nil (buf : Vector Byte Config.payloadCap) : captured buf [] = buf := by
  apply Vector.ext
  intro k hk
  rw [captured_get buf [] k hk]
  rfl

/-- Capturing one more byte writes it at the next offset, and nowhere past the buffer's end (R53, R54). -/
theorem captured_append (buf : Vector Byte Config.payloadCap) (q : List Byte) (b : Byte) :
    captured buf (q ++ [b]) = (captured buf q).setIfInBounds q.length b := by
  apply Vector.ext
  intro k hk
  rw [captured_get _ _ k hk, Vector.getElem_setIfInBounds, captured_get _ _ k hk]
  obtain hlt | rfl | hgt := Nat.lt_trichotomy k q.length
  · rw [if_neg hlt.ne', List.getD_append _ _ _ _ hlt]
  · simp
  · rw [if_neg hgt.ne, List.getD_eq_default _ _ (by simp; omega), List.getD_eq_default _ _ hgt.le]

theorem inFrame_index_toNat (hv : validLen n = true) (hq : q.length + 2 ≤ n.toNat) :
    (inFrame s n q).index.toNat = 4 + q.length := by
  have := toNat_of_validLen hv
  exact (BitVec.toNat_ofNat ..).trans (Nat.mod_eq_of_lt (by omega))

/-- A low byte that completes a valid length begins the payload (R116). -/
theorem stepWith_lenLow (hp : s.phase = .lenLow) (hn : lengthWith s.frameLen d = n) (hv : validLen n = true) :
    stepWith (.byte d) s = .next
      { s with
        index := 4, frameLen := n, calcSum := s.calcSum + zext16 d, status := waiting,
        event := Event.accept.code } := by
  subst hn
  rw [stepWith_byte (i := .lenLoOk d) hp (if_pos hv)]
  rfl

theorem runWith_headerBytes (h0 : s.index = 0) (hv : validLen n = true) :
    runWith (feed (headerBytes n)) s = .next (inFrame s n []) := by
  have hlen : lengthWith (bigEndian (highByte n) 0x00) (n.setWidth 8) = n := by
    rw [lengthWith, highByte_bigEndian, bigEndian_highByte_lowByte]
  have hsplit : feed (headerBytes n) =
      feed [Config.magic0, Config.magic1, highByte n] ++ feed [n.setWidth 8] := rfl
  rw [hsplit, runWith_append s _ _ (runWith_header h0 (highByte n)), inFrame, captured_nil]
  exact runWith_cons _ _ (stepWith_lenLow ((phase_lenLow _).2 rfl) hlen hv)

/-- Stored or only accumulated, a payload byte has one effect: at an offset of 24 or more the store is none (R54). -/
theorem stepWith_payload (hp : s.phase = .payload) (d : Byte) :
    stepWith (.byte d) s = .next ((s.accumulate d).storeByte s.storeOffset d).advance.accept := by
  by_cases h : payloadOffset s.index < Config.payloadCap
  · rw [stepWith_byte (i := .payloadStore d) hp (if_pos h)]
    rfl
  · rw [stepWith_byte (i := .payloadSkip d) hp (if_neg h), State.storeOffset, storeByte_outside _ d (Nat.not_lt.1 h)]
    rfl

/-- One more payload byte. -/
theorem stepWith_inFrame (hv : validLen n = true) (hq : q.length + 3 ≤ n.toNat) (b : Byte) :
    stepWith (.byte b) (inFrame s n q) = .next (inFrame s n (q ++ [b])) := by
  have hi : (inFrame s n q).index.toNat = 4 + q.length := inFrame_index_toNat hv (by omega)
  have hp : (inFrame s n q).phase = .payload :=
    (phaseOf_payload _ _).2 ⟨hv, by omega, hi ▸ (by omega : 4 + q.length ≤ n.toNat + 1)⟩
  have ho : (inFrame s n q).storeOffset = q.length := (payloadOffset_of_le (by omega)).trans (by omega)
  have hindex : BitVec.ofNat 5 (4 + (q ++ [b]).length) = BitVec.ofNat 5 (4 + q.length) + 1 := by
    rw [List.length_append, ← Nat.add_assoc, BitVec.ofNat_add]
    rfl
  rw [stepWith_payload hp, ho, inFrame, inFrame, hindex, captured_append, ← List.append_assoc, byteSum_append]
  rfl

/-- The payload, by induction on the bytes consumed so far. -/
theorem runWith_inFrame (h0 : s.index = 0) (hv : validLen n = true) (hq : q.length + 2 ≤ n.toNat) :
    runWith (feed (headerBytes n ++ q)) s = .next (inFrame s n q) := by
  induction q using List.reverseRecOn with
  | nil => exact (List.append_nil (headerBytes n)).symm ▸ runWith_headerBytes h0 hv
  | append_singleton q b ih =>
    rw [List.length_append, List.length_singleton] at hq
    rw [← List.append_assoc, feed_append, runWith_append s _ _ (ih (by omega))]
    exact runWith_cons _ _ (stepWith_inFrame hv (by omega) b)

/-- The last checksum byte decides the frame on the whole 16-bit field (R133, R134). -/
theorem stepWith_checksumLow {v : Half} (hp : s.phase = .checksumLow) (hv : checksumWith s.rxCsum d = v) :
    stepWith (.byte d) s = .next
      { s with
        index := 0, rxCsum := v
        status := if v = s.calcSum then 1 else 0
        event := if v = s.calcSum then 6 else 5
        rd := if v = s.calcSum then decodeReading s.buf else s.rd } := by
  subst hv
  by_cases h : checksumWith s.rxCsum d = s.calcSum
  · rw [stepWith_byte (i := .csumLoOk d) hp (if_pos h)]
    simp only [if_pos h]
    rfl
  · rw [stepWith_byte (i := .csumLoBad d) hp (if_neg h)]
    simp only [if_neg h]
    rfl

/-- The two checksum bytes, from the end of the payload. -/
theorem runWith_checksum (hv : validLen n = true) (hq : q.length + 2 = n.toNat) (v : Half) :
    runWith (feed [highByte v, v.setWidth 8]) (inFrame s n q) = .next
      { inFrame s n q with
        index := 0, rxCsum := v
        status := if v = byteSum (headerBytes n ++ q) then 1 else 0
        event := if v = byteSum (headerBytes n ++ q) then 6 else 5
        rd := if v = byteSum (headerBytes n ++ q) then decodeReading (captured s.buf q) else s.rd } := by
  have hi : (inFrame s n q).index.toNat = n.toNat + 2 := (inFrame_index_toNat hv hq.le).trans (by omega)
  have hi' : ((inFrame s n q).index + 1).toNat = n.toNat + 3 := by rw [toNat_index_add_one hv hi.le, hi]
  have hhigh : stepWith (.byte (highByte v)) (inFrame s n q) = exec (.csumHi (highByte v)) (inFrame s n q) :=
    stepWith_byte ((phaseOf_checksumHigh _ _).2 ⟨hv, hi⟩) rfl
  have hlow := stepWith_checksumLow (s := ((inFrame s n q).setRxCsum (bigEndian (highByte v) 0x00)).advance.accept)
    (d := v.setWidth 8) (v := v) ((phaseOf_checksumLow _ _).2 ⟨hv, hi'⟩)
    (by simp only [accept_rxCsum, advance_rxCsum, setRxCsum_rxCsum, checksumWith, highByte_bigEndian,
      bigEndian_highByte_lowByte])
  exact (runWith_cons _ _ hhigh).trans (runWith_cons _ _ hlow)

/-- Settles O40: the header and payload by `inFrame`, then the two checksum bytes. -/
theorem frameAcceptedIffSumMatches : Obligations.FrameAcceptedIffSumMatches := by
  intro s p c h0 hp
  have hlen : (BitVec.ofNat 16 (p.length + 2)).toNat = p.length + 2 :=
    (BitVec.toNat_ofNat ..).trans (Nat.mod_eq_of_lt (by omega))
  have hv : validLen (BitVec.ofNat 16 (p.length + 2)) = true := by
    obtain hp | hp := hp <;> rw [hp] <;> rfl
  rw [frameWith, frameBody_eq hp, feed_append, runWith_append s _ _ (runWith_inFrame h0 hv hlen.ge),
    runWith_checksum hv hlen.symm]
  rfl

end Sys2Proof.Proofs
end

section
/-! PROOFS. Control operations (40_control_ops.md): the step of R100, and `RESET`, `IDLE` and `PHASE_INVALID` with the
words and states that select them (R101 to R103). -/

namespace Sys2Proof.Proofs

open Sys2Proof Sys2Proof.Machine Sys2Proof.Laws

variable {s : State} {x : StepInput} {d : Byte}

/-! ### When R78 selects `IDLE` and `PHASE_INVALID` -/

/-- Neither `RESET` nor an offered byte leaves room for `IDLE`, and without them no phase counts (R78 row 2). -/
theorem operationFor_eq_idle_iff : s.operationFor x = .ok .idle ↔ x.rst = false ∧ x.inValid = false := by
  obtain ⟨r, v, b⟩ := x
  cases r with
  | true =>
    refine iff_of_false (fun h => ?_) (fun h => nomatch h.1)
    exact absurd (h.symm.trans (operationFor_eq_reset_iff.2 rfl)) nofun
  | false =>
    cases v with
    | true => exact iff_of_false (fun h => operationFor_byte_ne_idle (d := b) h rfl) (fun h => nomatch h.2)
    | false => exact iff_of_true (operationFor_eq s _) ⟨rfl, rfl⟩

/-- Phase 7 is the whole condition of `PHASE_INVALID` on the registers (R78 row 15). -/
theorem operationFor_eq_phaseInvalid_iff :
    s.operationFor x = .ok (.phaseInvalid d) ↔ x = .byte d ∧ s.phase = .none := by
  rw [operationFor_eq_ok_iff s x (i := .phaseInvalid d) nofun nofun]
  constructor
  · rintro ⟨b, rfl, hop⟩
    have hp : s.phase = .none :=
      (phaseOf_none _ _).2 (atPosition_of_operationFor ((operationFor_byte s b).trans (congrArg _ hop)))
    rw [hp] at hop
    exact ⟨congrArg _ (Instr.phaseInvalid.inj hop), hp⟩
  · rintro ⟨rfl, hp⟩
    exact ⟨d, rfl, hp ▸ rfl⟩

/-! ### Idle steps -/

theorem stepWith_of_no_offer (hr : x.rst = false) (hv : x.inValid = false) :
    stepWith x s = .next (s.setFlags waiting .idle) :=
  stepWith_of_operationFor s (operationFor_eq_idle_iff.2 ⟨hr, hv⟩)

/-- Clearing the flags again changes nothing, so a run of idle steps ends where its first step does. -/
theorem runWith_idles_succ (n : Nat) : runWith (idles (n + 1)) s = .next (s.setFlags waiting .idle) := by
  induction n generalizing s with
  | zero => exact runWith_cons s [] (stepWith_of_no_offer rfl rfl)
  | succ n ih => exact (runWith_cons s (idles (n + 1)) (stepWith_of_no_offer rfl rfl)).trans ih

/-! ### The obligations -/

/-- Settles O16: the word and registers in the statement are those `State.operation` decodes. -/
theorem stepRunsDecodedOperation : Obligations.StepRunsDecodedOperation := by
  intro s i h
  have hop : s.operation = .ok i := h
  exact ⟨step_of_operation s hop, rfl⟩

/-- Settles O17: the decoder never rejects, and an operation that does not complete is `PHASE_INVALID`. -/
theorem stepHasNoOtherOutcome : Obligations.StepHasNoOtherOutcome := by
  intro s x
  have hop := operationFor_eq s x
  have hstep := stepWith_of_operationFor s hop
  refine ⟨_, hop, hstep, ?_⟩
  rw [hstep]
  exact (exec_cases s _).imp_right fun ⟨d, hd, hfault⟩ => ⟨⟨d, hd⟩, hfault⟩

/-- Settles O1: `rst = 1` selects `RESET`, and its meaning writes every register of R35. -/
theorem resetRestoresResetValues : Obligations.ResetRestoresResetValues :=
  fun s _ => ⟨rfl, operationFor_eq_reset_iff, fun h => stepWith_of_operationFor s (operationFor_eq_reset_iff.2 h)⟩

/-- Settles O2: one idle step by its selection, any positive number by induction on it. -/
theorem idleWritesOnlyFlags : Obligations.IdleWritesOnlyFlags :=
  fun _ _ => ⟨rfl, operationFor_eq_idle_iff, stepWith_of_no_offer, runWith_idles_succ⟩

/-- Settles O3: `PHASE_INVALID` is selected by phase 7, which R71 gives to the indices outside every frame. -/
theorem phaseInvalidFaults : Obligations.PhaseInvalidFaults := by
  intro s x d
  refine ⟨rfl, ?_, stepWith_of_operationFor s⟩
  have hphase : s.phase = .none ↔ 4 ≤ s.index.toNat ∧
      (¬(s.frameLen = 20 ∨ s.frameLen = 28) ∨ s.frameLen.toNat + 3 < s.index.toNat) := by
    rw [← validLen_iff, Bool.not_eq_true]
    exact phaseOf_none _ _
  exact operationFor_eq_phaseInvalid_iff.trans (and_congr_right' hphase)

end Sys2Proof.Proofs
end

section
/-! PROOFS. Header and length operations (41_header_length.md): the effect of each, the byte and position at which R78
selects it, and what it leaves for the byte after it (R111 to R117). -/

namespace Sys2Proof.Proofs

open Sys2Proof Sys2Proof.Machine Sys2Proof.Laws

variable {s : State} {x : StepInput} {i : Instr} {d : Byte} {n v : Half}

/-! ### When R78 selects an operation that takes a byte -/

/-- An operation that takes a byte is selected by its own byte in its own phase, on its row's condition (R78). -/
theorem operationFor_eq_iff_of_encode {p : Phase} (he : encode i = stepWord false true p.code d) :
    s.operationFor x = .ok i ↔
      x = .byte d ∧ s.phase = p ∧ i.wellFormed = true ∧ i.condition s.context = true := by
  have hr : i ≠ .reset := by
    rintro rfl
    exact Bool.false_ne_true (stepWord_inj.1 he).1.symm
  have hi : i ≠ .idle := by
    rintro rfl
    exact Bool.false_ne_true (stepWord_inj.1 he).2.1
  constructor
  · intro h
    obtain ⟨b, rfl, hop⟩ := (operationFor_eq_ok_iff s x hr hi).1 h
    obtain ⟨he', hw, hc⟩ := encode_of_operationOf (c := s.context) hop
    obtain ⟨-, -, hp, rfl⟩ := stepWord_inj.1 (he'.symm.trans he)
    exact ⟨rfl, code_injective hp, hw, hc⟩
  · rintro ⟨rfl, rfl, hw, hc⟩
    exact (congrArg (decode s.context) he.symm).trans (decode_encode hw hc)

theorem operationFor_eq_h1Match_iff :
    s.operationFor x = .ok .h1Match ↔ x = .byte Config.magic0 ∧ s.index = 0 := by
  rw [operationFor_eq_iff_of_encode (p := .seekHeader1) rfl, phase_seekHeader1]
  simp [Instr.wellFormed, Instr.condition]

theorem operationFor_eq_h1Discard_iff :
    s.operationFor x = .ok (.h1Discard d) ↔ x = .byte d ∧ s.index = 0 ∧ d ≠ Config.magic0 := by
  rw [operationFor_eq_iff_of_encode (p := .seekHeader1) rfl, phase_seekHeader1]
  simp [Instr.wellFormed, Instr.condition]

theorem operationFor_eq_h2Match_iff :
    s.operationFor x = .ok .h2Match ↔ x = .byte Config.magic1 ∧ s.index = 1 := by
  rw [operationFor_eq_iff_of_encode (p := .seekHeader2) rfl, phase_seekHeader2]
  simp [Instr.wellFormed, Instr.condition]

theorem operationFor_eq_h2Resync_iff :
    s.operationFor x = .ok (.h2Resync d) ↔ x = .byte d ∧ s.index = 1 ∧ d ≠ Config.magic1 := by
  rw [operationFor_eq_iff_of_encode (p := .seekHeader2) rfl, phase_seekHeader2]
  simp [Instr.wellFormed, Instr.condition]

theorem operationFor_eq_lenHi_iff : s.operationFor x = .ok (.lenHi d) ↔ x = .byte d ∧ s.index = 2 := by
  rw [operationFor_eq_iff_of_encode (p := .lenHigh) rfl, phase_lenHigh]
  simp [Instr.wellFormed, Instr.condition]

/-- The row's condition on the whole length already fixes the low byte that `wellFormed` asks for. -/
theorem operationFor_eq_lenLoOk_iff :
    s.operationFor x = .ok (.lenLoOk d) ↔
      x = .byte d ∧ s.index = 3 ∧ validLen (lengthWith s.frameLen d) = true := by
  rw [operationFor_eq_iff_of_encode (p := .lenLow) rfl, phase_lenLow]
  exact and_congr_right' (and_congr_right' (and_iff_right_of_imp wellFormed_lenLoOk_of_validLen))

theorem operationFor_eq_lenLoBad_iff :
    s.operationFor x = .ok (.lenLoBad d) ↔
      x = .byte d ∧ s.index = 3 ∧ ¬validLen (lengthWith s.frameLen d) = true := by
  rw [operationFor_eq_iff_of_encode (p := .lenLow) rfl, phase_lenLow]
  simp [Instr.wellFormed, Instr.condition]

/-! ### The length field (R110, R116) -/

theorem bigEndian_eq_iff {h l : Byte} : bigEndian h l = v ↔ h = highByte v ∧ l = v.setWidth 8 := by
  constructor
  · rintro rfl
    exact ⟨(highByte_bigEndian h l).symm, (lowByte_bigEndian h l).symm⟩
  · rintro ⟨rfl, rfl⟩
    exact bigEndian_highByte_lowByte v

/-- The only byte pairs of a valid length are `00 14` and `00 1C` (R116). -/
theorem validLen_lengthWith_iff :
    validLen (lengthWith n d) = true ↔ highByte n = 0x00 ∧ (d = 0x14 ∨ d = 0x1C) := by
  have hshort : lengthWith n d = 20 ↔ highByte n = 0x00 ∧ d = 0x14 := bigEndian_eq_iff
  have hext : lengthWith n d = 28 ↔ highByte n = 0x00 ∧ d = 0x1C := bigEndian_eq_iff
  rw [validLen_iff, hshort, hext, and_or_left]

/-- After a non-zero high byte no low byte makes the length valid (R115). -/
theorem not_validLen_after_nonzero_high (hd : d ≠ 0x00) (e : Byte) :
    ¬validLen (lengthWith (bigEndian d 0x00) e) = true := by
  rw [validLen_lengthWith_iff, highByte_bigEndian]
  exact fun h => hd h.1

/-- Before the low byte of a length whose high byte is 0, the sum is that of `42 4D 00`. -/
theorem calcSum_of_sumInv_lenLow (hs : s.sumInv) (h3 : s.index = 3) (hh : highByte s.frameLen = 0x00) :
    s.calcSum = 0x008F := by
  obtain ⟨-, hc⟩ := (sumInv_iff_of_index_three (congrArg BitVec.toNat h3)).1 hs
  rw [← toNat_highByte, hh] at hc
  exact BitVec.eq_of_toNat_eq hc

/-! ### The obligations -/

/-- Settles O4: `0x42` at `index` 0 is the row's whole condition, and the new sum is that byte's alone. -/
theorem h1MatchStartsFrame : Obligations.H1MatchStartsFrame :=
  fun s _ => ⟨rfl, operationFor_eq_h1Match_iff, stepWith_of_operationFor s⟩

/-- Settles O5: the row's condition is `index` 0 and another byte, and the meaning writes the flags. -/
theorem h1DiscardKeepsHunting : Obligations.H1DiscardKeepsHunting :=
  fun s _ _ => ⟨rfl, operationFor_eq_h1Discard_iff, stepWith_of_operationFor s⟩

/-- Settles O6: at `index` 1 the sum invariant is `calc = 0x0042`, to which `0x4D` is added. -/
theorem h2MatchAcceptsHeader : Obligations.H2MatchAcceptsHeader := by
  intro s x
  refine ⟨rfl, operationFor_eq_h2Match_iff, stepWith_of_operationFor s, fun hop hs => ?_⟩
  obtain ⟨-, h1⟩ := operationFor_eq_h2Match_iff.1 hop
  have hc : s.calcSum = 0x0042 := (sumInv_iff_of_index_one (congrArg BitVec.toNat h1)).1 hs
  exact ⟨_, stepWith_of_operationFor s hop, congrArg (· + zext16 Config.magic1) hc⟩

/-- Settles O7: the second `42` resynchronizes to `index` 0, where the `4D` is no first header byte. -/
theorem h2ResyncReturnsToHunt : Obligations.H2ResyncReturnsToHunt := by
  refine ⟨fun s x d => ⟨rfl, operationFor_eq_h2Resync_iff, stepWith_of_operationFor s⟩, fun s h0 => ?_⟩
  have hmatch : s.operationFor (.byte 0x42) = .ok .h1Match := operationFor_eq_h1Match_iff.2 ⟨rfl, h0⟩
  have hresync (t : State) (h1 : t.index = 1) : t.operationFor (.byte 0x42) = .ok (.h2Resync 0x42) :=
    operationFor_eq_h2Resync_iff.2 ⟨rfl, h1, by decide⟩
  have hdiscard (u : State) (h0 : u.index = 0) : u.operationFor (.byte 0x4D) = .ok (.h1Discard 0x4D) :=
    operationFor_eq_h1Discard_iff.2 ⟨rfl, h0, by decide⟩
  exact ⟨_, _, _, stepWith_of_operationFor _ hmatch, stepWith_of_operationFor _ (hresync _ rfl),
    stepWith_of_operationFor _ (hdiscard _ rfl), hresync _ rfl, hdiscard _ rfl, rfl⟩

/-- Settles O8: `index` 2 is the row's whole condition; a non-zero high byte then decides `LEN_LO_BAD`. -/
theorem lenHiLoadsHighByte : Obligations.LenHiLoadsHighByte := by
  intro s x d
  refine ⟨rfl, operationFor_eq_lenHi_iff, stepWith_of_operationFor s, fun hop hd => ?_⟩
  exact ⟨_, stepWith_of_operationFor s hop, fun e =>
    operationFor_eq_lenLoBad_iff.2 ⟨rfl, rfl, not_validLen_after_nonzero_high hd e⟩⟩

/-- Settles O9: the two valid lengths have high byte 0, so the sum before the low byte is `0x008F`. -/
theorem lenLoOkAcceptsValidLength : Obligations.LenLoOkAcceptsValidLength := by
  intro s x d
  refine ⟨rfl, ?_, stepWith_of_operationFor s, fun hop => ?_, fun hop hs => ?_⟩
  · exact operationFor_eq_lenLoOk_iff.trans (and_congr_right' (and_congr_right' (validLen_iff _)))
  · obtain ⟨-, -, hv⟩ := operationFor_eq_lenLoOk_iff.1 hop
    exact validLen_lengthWith_iff.1 hv
  · obtain ⟨-, h3, hv⟩ := operationFor_eq_lenLoOk_iff.1 hop
    have hc : s.calcSum = 0x008F := calcSum_of_sumInv_lenLow hs h3 (validLen_lengthWith_iff.1 hv).1
    have hsum : s.calcSum + zext16 d = 0x008F + zext16 d := congrArg (· + zext16 d) hc
    exact ⟨_, stepWith_of_operationFor s hop, fun hd => hsum.trans (hd ▸ rfl), fun hd => hsum.trans (hd ▸ rfl)⟩

/-- Settles O10: the row's condition is that of `LEN_LO_OK` negated, over all 16 bits. -/
theorem lenLoBadRejectsLength : Obligations.LenLoBadRejectsLength := by
  intro s x d
  refine ⟨rfl, ?_, stepWith_of_operationFor s⟩
  exact operationFor_eq_lenLoBad_iff.trans (and_congr_right' (and_congr_right' (not_congr (validLen_iff _))))

end Sys2Proof.Proofs
end

section
/-! PROOFS. Payload and checksum operations (42_payload_checksum.md): the effect of each and the positions at which R78
selects it (R130 to R134), the bound on the running sum (R136), and the detection of a flipped bit (R137). -/

namespace Sys2Proof.Proofs

open Sys2Proof Sys2Proof.Machine Sys2Proof.Laws

variable {s t : State} {x : StepInput} {d : Byte}

/-! ### When R78 selects a payload or checksum operation -/

/-- Phases 4 to 6 of R71 in the registers of a state, with the valid lengths written out. -/
theorem phase_payload :
    s.phase = .payload ↔
      (s.frameLen = 20 ∨ s.frameLen = 28) ∧ 4 ≤ s.index.toNat ∧ s.index.toNat ≤ s.frameLen.toNat + 1 := by
  rw [← validLen_iff]
  exact phaseOf_payload _ _

theorem phase_checksumHigh :
    s.phase = .checksumHigh ↔ (s.frameLen = 20 ∨ s.frameLen = 28) ∧ s.index.toNat = s.frameLen.toNat + 2 := by
  rw [← validLen_iff]
  exact phaseOf_checksumHigh _ _

theorem phase_checksumLow :
    s.phase = .checksumLow ↔ (s.frameLen = 20 ∨ s.frameLen = 28) ∧ s.index.toNat = s.frameLen.toNat + 3 := by
  rw [← validLen_iff]
  exact phaseOf_checksumLow _ _

/-- Once the header is past, the offset a payload byte goes to is `index - 4` with no wrap (R53). -/
theorem storeOffset_of_payload (hp : s.phase = .payload) : s.storeOffset = s.index.toNat - 4 :=
  payloadOffset_of_le (phase_payload.1 hp).2.1

theorem operationFor_eq_payloadStore_iff :
    s.operationFor x = .ok (.payloadStore d) ↔ x = .byte d ∧ s.phase = .payload ∧ s.storeOffset < 24 := by
  rw [operationFor_eq_iff_of_encode (p := .payload) rfl]
  exact and_congr_right' (and_congr_right' ((and_iff_right rfl).trans decide_eq_true_iff))

theorem operationFor_eq_payloadSkip_iff :
    s.operationFor x = .ok (.payloadSkip d) ↔ x = .byte d ∧ s.phase = .payload ∧ 24 ≤ s.storeOffset := by
  rw [operationFor_eq_iff_of_encode (p := .payload) rfl]
  exact and_congr_right' (and_congr_right' ((and_iff_right rfl).trans decide_eq_true_iff))

theorem operationFor_eq_csumHi_iff :
    s.operationFor x = .ok (.csumHi d) ↔ x = .byte d ∧ s.phase = .checksumHigh := by
  rw [operationFor_eq_iff_of_encode (p := .checksumHigh) rfl]
  simp [Instr.wellFormed, Instr.condition]

theorem operationFor_eq_csumLoOk_iff :
    s.operationFor x = .ok (.csumLoOk d) ↔
      x = .byte d ∧ s.phase = .checksumLow ∧ checksumWith s.rxCsum d = s.calcSum := by
  rw [operationFor_eq_iff_of_encode (p := .checksumLow) rfl]
  simp [Instr.wellFormed, Instr.condition]

theorem operationFor_eq_csumLoBad_iff :
    s.operationFor x = .ok (.csumLoBad d) ↔
      x = .byte d ∧ s.phase = .checksumLow ∧ checksumWith s.rxCsum d ≠ s.calcSum := by
  rw [operationFor_eq_iff_of_encode (p := .checksumLow) rfl]
  simp [Instr.wellFormed, Instr.condition]

/-- Only an extended frame has payload offsets of 24 and above: 24 and 25 (R131). -/
theorem payload_past_buffer_iff :
    (s.phase = .payload ∧ 24 ≤ s.storeOffset) ↔ s.frameLen = 28 ∧ (s.index = 28 ∨ s.index = 29) := by
  have h28 : s.index = 28 ↔ s.index.toNat = 28 := index_eq_iff (n := 28) (by decide)
  have h29 : s.index = 29 ↔ s.index.toNat = 29 := index_eq_iff (n := 29) (by decide)
  rw [h28, h29]
  constructor
  · rintro ⟨hp, ho⟩
    rw [storeOffset_of_payload hp] at ho
    obtain ⟨hshort | hext, -, hle⟩ := phase_payload.1 hp
    · rw [hshort] at hle
      have : s.index.toNat ≤ 21 := hle
      omega
    · rw [hext] at hle
      have : s.index.toNat ≤ 29 := hle
      exact ⟨hext, by omega⟩
  · rintro ⟨hext, hi⟩
    have hp : s.phase = .payload := phase_payload.2 ⟨.inr hext, by omega, hext ▸ (by omega : s.index.toNat ≤ 29)⟩
    exact ⟨hp, by rw [storeOffset_of_payload hp]; omega⟩

/-! ### The running sum (R136) -/

/-- In a frame the sum stays below `2^13`: the header alone gives little, and each payload byte at most `0xFF`. -/
theorem calcSum_lt_of_inv (hi : s.indexInv) (hs : s.sumInv) (h1 : 1 ≤ s.index.toNat) : s.calcSum.toNat < 2 ^ 13 := by
  obtain ⟨hs1, hs2, hs3, hs4⟩ := hs
  obtain hhead | ⟨hlen, h4, -⟩ := hi
  · obtain hi1 | hi2 | hi3 : s.index.toNat = 1 ∨ s.index.toNat = 2 ∨ s.index.toNat = 3 := by omega
    · simp [hs1 hi1]
    · simp [hs2 hi2]
    · have := (hs3 hi3).2
      omega
  · have := toNat_of_validLen ((validLen_iff _).2 hlen)
    have := hs4 h4
    omega

/-- After the whole payload the sum is at most that of the header, the length byte and `0xFF` for each payload byte. -/
theorem calcSum_le_of_checksum (hs : s.sumInv) (hp : s.phase = .checksumHigh ∨ s.phase = .checksumLow) :
    s.calcSum.toNat ≤ 0x8F + s.frameLen.toNat + 255 * (s.frameLen.toNat - 2) := by
  obtain ⟨hlen, hi⟩ : (s.frameLen = 20 ∨ s.frameLen = 28) ∧ s.frameLen.toNat + 2 ≤ s.index.toNat := by
    obtain hp | hp := hp
    · exact (phase_checksumHigh.1 hp).imp_right Eq.ge
    · exact (phase_checksumLow.1 hp).imp_right fun h => by omega
  have := toNat_of_validLen ((validLen_iff _).2 hlen)
  have := (sumInv_iff_of_header_past (by omega)).1 hs
  omega

/-- A byte that moves the frame on is added to the sum, unless it is the checksum's high byte (R111 to R116, R130 to
R132). -/
theorem calcSum_of_advance (h : stepWith (.byte d) s = .next t) (h1 : s.index ≠ 0) (ht : t.index ≠ 0) :
    t.calcSum = if s.phase = .checksumHigh then s.calcSum else s.calcSum + zext16 d := by
  cases hp : s.phase with
  | seekHeader1 => exact absurd ((phase_seekHeader1 s).1 hp) h1
  | seekHeader2 =>
    by_cases hd : d = Config.magic1
    · subst hd
      exact next_inj.1 ((stepWith_byte hp rfl).symm.trans h) ▸ rfl
    · rw [stepWith_byte (i := .h2Resync d) hp (if_neg hd)] at h
      exact absurd (next_inj.1 h ▸ rfl) ht
  | lenHigh => exact next_inj.1 ((stepWith_byte hp rfl).symm.trans h) ▸ rfl
  | lenLow =>
    by_cases hv : validLen (lengthWith s.frameLen d) = true
    · exact next_inj.1 ((stepWith_lenLow hp rfl hv).symm.trans h) ▸ rfl
    · rw [stepWith_byte (i := .lenLoBad d) hp (if_neg hv)] at h
      exact absurd (next_inj.1 h ▸ rfl) ht
  | payload => exact next_inj.1 ((stepWith_payload hp d).symm.trans h) ▸ rfl
  | checksumHigh => exact next_inj.1 ((stepWith_byte hp rfl).symm.trans h) ▸ rfl
  | checksumLow => exact absurd (next_inj.1 ((stepWith_checksumLow hp rfl).symm.trans h) ▸ rfl) ht
  | none => exact absurd ((stepWith_byte hp rfl).symm.trans h) fault_ne_next

/-- Below `2^13` a byte is added with no wrap. -/
theorem toNat_add_zext16 {v : Half} (h : v.toNat < 2 ^ 13) (b : Byte) : (v + zext16 b).toNat = v.toNat + b.toNat := by
  have := b.isLt
  rw [BitVec.toNat_add_of_lt] <;> rw [toNat_zext16]
  omega

/-! ### One changed byte (R135, R137) -/

theorem zext16_injective : Function.Injective zext16 := by
  intro a b h
  have h' := congrArg BitVec.toNat h
  rw [toNat_zext16, toNat_zext16] at h'
  exact BitVec.eq_of_toNat_eq h'

theorem byteSum_eq_sum (bs : List Byte) : byteSum bs = (bs.map zext16).sum := by
  rw [List.sum_eq_foldl, List.foldl_map]
  rfl

/-- Putting another byte in one place changes the sum: bytes stay apart when extended to 16 bits. -/
theorem byteSum_set_eq_iff {bs : List Byte} {k : Nat} (hk : k < bs.length) (b : Byte) :
    byteSum (bs.set k b) = byteSum bs ↔ b = bs[k] := by
  rw [byteSum_eq_sum, byteSum_eq_sum, List.map_set, List.sum_set', dif_pos (by simpa using hk), List.getElem_map,
    add_eq_left, neg_add_eq_zero, zext16_injective.eq_iff, eq_comm]

theorem frameBody_set (p : List Byte) (k : Nat) (b : Byte) : frameBody (p.set k b) = (frameBody p).set (k + 4) b := by
  rw [frameBody, List.length_set]
  rfl

theorem xor_twoPow_ne {w : Nat} (v : BitVec w) {b : Nat} (hb : b < w) : v ^^^ BitVec.twoPow w b ≠ v := by
  intro h
  have hbit := congrArg (fun u : BitVec w => u.getLsbD b) h
  simp [hb] at hbit

/-- A frame whose payload differs from `p` in one byte has another sum than `p`'s. -/
theorem byteSum_frameBody_set_ne (p : List Byte) (k : Fin p.length) {b : Byte} (hb : b ≠ p[k]) :
    byteSum (frameBody p) ≠ byteSum (frameBody (p.set k b)) := by
  have hk : k.val + 4 < (frameBody p).length := by simp [frameBody]
  rw [frameBody_set]
  exact fun h => hb ((byteSum_set_eq_iff hk b).1 h.symm)

/-! ### The obligations -/

/-- Settles O11: in the payload phase `index - 4` does not wrap, and the row's condition on it is R53's bound. -/
theorem payloadStoreKeepsByte : Obligations.PayloadStoreKeepsByte := by
  intro s x d
  refine ⟨rfl, ?_, fun hop => ?_⟩
  · rw [operationFor_eq_payloadStore_iff]
    refine and_congr_right' ⟨fun ⟨hp, ho⟩ => ?_, fun ⟨hlen, h4, hle, ho⟩ => ?_⟩
    · obtain ⟨hlen, h4, hle⟩ := phase_payload.1 hp
      exact ⟨hlen, h4, hle, storeOffset_of_payload hp ▸ ho⟩
    · have hp : s.phase = .payload := phase_payload.2 ⟨hlen, h4, hle⟩
      exact ⟨hp, storeOffset_of_payload hp ▸ ho⟩
  · obtain ⟨-, hp, -⟩ := operationFor_eq_payloadStore_iff.1 hop
    rw [stepWith_of_operationFor s hop, ← storeOffset_of_payload hp]
    rfl

/-- Settles O12: the payload phase reaches an offset of 24 or more at `index` 28 and 29 of an extended frame only. -/
theorem payloadSkipOnlyAccumulates : Obligations.PayloadSkipOnlyAccumulates :=
  fun s _ _ =>
    ⟨rfl, operationFor_eq_payloadSkip_iff.trans (and_congr_right' payload_past_buffer_iff), stepWith_of_operationFor s⟩

/-- Settles O13: phase 5 is the row's whole condition. -/
theorem csumHiLoadsHighByte : Obligations.CsumHiLoadsHighByte :=
  fun s _ _ =>
    ⟨rfl, operationFor_eq_csumHi_iff.trans (and_congr_right' phase_checksumHigh), stepWith_of_operationFor s⟩

/-- Settles O14: phase 6 and equality of the whole received checksum with `calc` are the row's condition. -/
theorem csumLoOkPublishesReading : Obligations.CsumLoOkPublishesReading := by
  intro s x d
  refine ⟨rfl, ?_, stepWith_of_operationFor s⟩
  rw [operationFor_eq_csumLoOk_iff, phase_checksumLow, and_assoc]
  rfl

/-- Settles O15: phase 6 and a received checksum other than `calc` are the row's condition. -/
theorem csumLoBadDiscardsFrame : Obligations.CsumLoBadDiscardsFrame := by
  intro s x d
  refine ⟨rfl, ?_, stepWith_of_operationFor s⟩
  rw [operationFor_eq_csumLoBad_iff, phase_checksumLow, and_assoc]
  rfl

/-- Settles O36: the bounds are `sumInv` at the two lengths; below `2^13` a byte is added exactly, and a received checksum
above the larger bound differs from `calc`. -/
theorem checksumNeverOverflows : Obligations.ChecksumNeverOverflows := by
  intro s hi hs
  have hext (hlen : s.frameLen = 28) (hp : s.phase = .checksumHigh ∨ s.phase = .checksumLow) :
      s.calcSum.toNat ≤ 6801 := by
    have := calcSum_le_of_checksum hs hp
    rwa [hlen] at this
  have hshort (hlen : s.frameLen = 20) (hp : s.phase = .checksumHigh ∨ s.phase = .checksumLow) :
      s.calcSum.toNat ≤ 4753 := by
    have := calcSum_le_of_checksum hs hp
    rwa [hlen] at this
  refine ⟨calcSum_lt_of_inv hi hs, hext, hshort, fun d t h hadv h1 => ?_, fun d hp hrx => ?_⟩
  · have hcalc := calcSum_of_advance h (ne_of_apply_ne BitVec.toNat (Nat.ne_of_gt h1))
      (ne_of_apply_ne BitVec.toNat (hadv ▸ Nat.succ_ne_zero _))
    refine ⟨fun hp => hcalc.trans (if_pos hp), fun hp => ?_⟩
    rw [hcalc, if_neg hp, toNat_add_zext16 (calcSum_lt_of_inv hi hs h1)]
  · have hle : s.calcSum.toNat ≤ 0x1A91 :=
      (phase_checksumLow.1 hp).1.elim (fun hlen => (hshort hlen (.inr hp)).trans (by decide)) (hext · (.inr hp))
    have hne : checksumWith s.rxCsum d ≠ s.calcSum := fun heq => hrx.not_ge ((congrArg BitVec.toNat heq).trans_le hle)
    exact ⟨_, stepWith_of_operationFor s (operationFor_eq_csumLoBad_iff.2 ⟨rfl, hp, hne⟩), rfl, rfl⟩

/-- Settles O41: the flipped byte changes the sum, so by O40 the frame ends with the old sum refused. -/
theorem payloadBitFlipIsDetected : Obligations.PayloadBitFlipIsDetected := by
  intro s p j b h0 hp hb
  have hne := byteSum_frameBody_set_ne p j (xor_twoPow_ne p[j] hb)
  exact ⟨_, frameAcceptedIffSumMatches s _ _ h0 (by rwa [List.length_set]), if_neg hne, if_neg hne, if_neg hne⟩

end Sys2Proof.Proofs
end

section
/-! PROOFS. Field decoder (43_field_decoder.md): each field of the Reading as a number and the offsets no field reads
(R150 to R153), and what the fields hold after a frame shorter than the buffer (R154). -/

namespace Sys2Proof.Proofs

open Sys2Proof Sys2Proof.Machine Sys2Proof.Laws

variable {buf : Vector Byte Config.payloadCap} {p : List Byte} {j : Fin Config.nFields}

/-! ### The bytes a field reads -/

/-- Both bytes of a field lie in the buffer. -/
theorem fieldOffsets_inside (j : Fin Config.nFields) : Config.fieldOffsets[j] + 1 < Config.payloadCap := by
  revert j
  decide

/-- No field reads an offset from 12 to 19 (R153). -/
theorem fieldOffsets_outside_gap (j : Fin Config.nFields) :
    Config.fieldOffsets[j] + 1 < 12 ∨ 20 ≤ Config.fieldOffsets[j] := by
  revert j
  decide

/-- The 18 payload bytes of a short frame cover the pairs of `rd[0..5]`. -/
theorem fieldOffsets_within_short_payload (hj : j < 6) : Config.fieldOffsets[j] + 1 < 18 := by
  revert j
  decide

/-- The pairs of `rd[6]` and `rd[7]` lie past the payload of a short frame. -/
theorem fieldOffsets_past_short_payload (hj : 6 ≤ j) : 18 ≤ Config.fieldOffsets[j] := by
  revert j
  decide

theorem toNat_decodeReading_field (buf : Vector Byte Config.payloadCap) (j : Fin Config.nFields) :
    (decodeReading buf)[j].toNat =
      (buf[Config.fieldOffsets[j]]'(Nat.lt_of_succ_lt (fieldOffsets_inside j))).toNat * 256 +
        (buf[Config.fieldOffsets[j] + 1]'(fieldOffsets_inside j)).toNat := by
  rw [decodeReading_field, toNat_bigEndian, Nat.mul_comm]

theorem decodeReading_eq_of_agree {a b : Vector Byte Config.payloadCap}
    (h : ∀ k : Fin Config.payloadCap, k.val < 12 ∨ 20 ≤ k.val → a[k] = b[k]) : decodeReading a = decodeReading b := by
  apply Vector.ext
  intro i hi
  have hgap := fieldOffsets_outside_gap ⟨i, hi⟩
  have hhigh := h ⟨_, Nat.lt_of_succ_lt (fieldOffsets_inside ⟨i, hi⟩)⟩ (hgap.imp_left Nat.lt_of_succ_lt)
  have hlow := h ⟨_, fieldOffsets_inside ⟨i, hi⟩⟩ (hgap.imp_right Nat.le_succ_of_le)
  exact (decodeReading_field a ⟨i, hi⟩).trans
    ((congrArg₂ bigEndian hhigh hlow).trans (decodeReading_field b ⟨i, hi⟩).symm)

/-! ### The fields after a frame -/

/-- A field whose pair the payload covers is the payload's. -/
theorem decodeReading_captured_of_covered (h : Config.fieldOffsets[j] + 1 < p.length) :
    (decodeReading (captured buf p))[j] =
      bigEndian (p.getD Config.fieldOffsets[j] 0) (p.getD (Config.fieldOffsets[j] + 1) 0) := by
  rw [decodeReading_field, captured_get, captured_get, List.getD_eq_getElem _ _ h,
    List.getD_eq_getElem _ _ (Nat.lt_of_succ_lt h), List.getD_eq_getElem _ _ h,
    List.getD_eq_getElem _ _ (Nat.lt_of_succ_lt h)]

/-- A field whose pair lies past the payload's end is the buffer's from before the frame (R154). -/
theorem decodeReading_captured_of_past (h : p.length ≤ Config.fieldOffsets[j]) :
    (decodeReading (captured buf p))[j] =
      bigEndian (buf[Config.fieldOffsets[j]]'(Nat.lt_of_succ_lt (fieldOffsets_inside j)))
        (buf[Config.fieldOffsets[j] + 1]'(fieldOffsets_inside j)) := by
  rw [decodeReading_field, captured_get, captured_get, List.getD_eq_default _ _ h,
    List.getD_eq_default _ _ (Nat.le_succ_of_le h)]

/-! ### The obligations -/

/-- Settles O37: each field is a big-endian pair at its own offset, and no field's offsets meet 12 to 19. -/
theorem decoderPairsBigEndian : Obligations.DecoderPairsBigEndian :=
  ⟨fun buf =>
    have field := toNat_decodeReading_field buf
    ⟨field 0, field 1, field 2, field 3, field 4, field 5, field 6, field 7⟩,
   fun _ _ => decodeReading_eq_of_agree⟩

/-- Settles O42: by O40 the frame passes with the Reading of the captured buffer, whose first six fields the payload
covers and whose last two lie past it. -/
theorem shortFrameExposesStaleBytes : Obligations.ShortFrameExposesStaleBytes := by
  intro s p hp h0
  have hrun := frameAcceptedIffSumMatches s p (byteSum (frameBody p)) h0 (.inl hp)
  simp only [if_true] at hrun
  have own (j : Fin Config.nFields) (hj : j < 6) :=
    decodeReading_captured_of_covered (buf := s.buf) (hp ▸ fieldOffsets_within_short_payload hj)
  have stale (j : Fin Config.nFields) (hj : 6 ≤ j) :=
    decodeReading_captured_of_past (buf := s.buf) (hp ▸ fieldOffsets_past_short_payload hj)
  exact ⟨_, hrun, rfl, own 0 (by decide), own 1 (by decide), own 2 (by decide), own 3 (by decide), own 4 (by decide),
    own 5 (by decide), stale 6 (by decide), stale 7 (by decide)⟩

end Sys2Proof.Proofs
end

section
/-! PROOFS. Errors (60_exceptions.md): no step stops inside the index range (R204, R207), and each of the four error
conditions with its event and its state change (R200). -/

namespace Sys2Proof.Proofs

open Sys2Proof Sys2Proof.Machine Sys2Proof.Laws

variable {s t : State} {x : StepInput}

/-- A step that does not complete is the model's fault on a byte offered in phase 7 (R103). -/
theorem stepWith_cases (s : State) (x : StepInput) :
    (∃ t, stepWith x s = .next t) ∨
      ∃ d, x = .byte d ∧ s.phase = .none ∧ stepWith x s = .fault (.phaseInvalid s) := by
  have hop := operationFor_eq s x
  rw [stepWith_of_operationFor s hop]
  obtain hnext | ⟨d, hd, hfault⟩ := exec_cases s _
  · exact .inl hnext
  · obtain ⟨hx, hp⟩ := operationFor_eq_phaseInvalid_iff.1 (hd ▸ hop)
    exact .inr ⟨d, hx, hp, hfault⟩

/-- Settles O27: the only stop is the fault in phase 7, which no state of the index range is in. -/
theorem noStopInsideIndexRange : Obligations.NoStopInsideIndexRange := by
  intro s x
  refine ⟨fun hs => ?_, fun f hf => ?_, fun r hr => ?_⟩
  · exact ⟨stepWith_completes_of_indexInv (s := s.consumeInput) hs _, stepWith_completes_of_indexInv hs x⟩
  · obtain ⟨t, hnext⟩ | ⟨d, rfl, hp, -⟩ := stepWith_cases s x
    · exact absurd (hf.symm.trans hnext) fault_ne_next
    · exact ⟨rfl, rfl, fun hs => phase_ne_none_of_indexInv hs hp⟩
  · obtain ⟨t, hnext⟩ | ⟨d, -, -, hfault⟩ := stepWith_cases s x
    · exact absurd (hr.symm.trans hnext) refused_ne_next
    · exact absurd (hr.symm.trans hfault) nofun

/-! ### The error that an event names (R76, R200) -/

/-- `op` is the one operation that R76 gives the event `e`. -/
def SoleOperation (e : Event) (op : Byte → Instr) : Prop :=
  ∀ i, eventOf i = some e ↔ ∃ d, i = op d

theorem soleOperation_hunt : SoleOperation .hunt .h1Discard := fun i => by cases i <;> simp [eventOf]

theorem soleOperation_badMagic2 : SoleOperation .badMagic2 .h2Resync := fun i => by cases i <;> simp [eventOf]

theorem soleOperation_badLen : SoleOperation .badLen .lenLoBad := fun i => by cases i <;> simp [eventOf]

theorem soleOperation_badCsum : SoleOperation .badCsum .csumLoBad := fun i => by cases i <;> simp [eventOf]

/-- The event after a step names the operation that made it, when no other operation has that event. -/
theorem event_eq_code_iff {e : Event} {op : Byte → Instr} (hsole : SoleOperation e op) (h : stepWith x s = .next t) :
    t.event = e.code ↔ ∃ d, s.operationFor x = .ok (op d) := by
  obtain ⟨i, hop, he⟩ := exists_operation_of_stepWith h
  obtain ⟨e', hi, ht⟩ := exec_event he
  rw [ht, event_code_injective.eq_iff, ← Option.some_inj, ← hi, hsole i, hop]
  simp only [Except.ok.injEq]

/-- A row of R200, from the rule of its operation (where R78 selects `op`, and what the step then does) and from `op` being
alone in its event. -/
theorem error_row {e : Event} {op : Byte → Instr} {cond : Byte → Prop} {post : Byte → State}
    (hsole : SoleOperation e op) (h : stepWith x s = .next t)
    (hrule : ∀ d, (s.operationFor x = .ok (op d) ↔ x = .byte d ∧ cond d) ∧
      (s.operationFor x = .ok (op d) → stepWith x s = .next (post d))) :
    (t.event = e.code ↔ ∃ d, x = .byte d ∧ cond d) ∧ (t.event = e.code → t = post x.inData) := by
  have hevent := event_eq_code_iff hsole h
  refine ⟨hevent.trans (exists_congr fun d => (hrule d).1), fun ht => ?_⟩
  obtain ⟨d, hop⟩ := hevent.1 ht
  obtain ⟨hselected, hstep⟩ := hrule d
  obtain ⟨rfl, -⟩ := hselected.1 hop
  exact next_inj.1 (h.symm.trans (hstep hop))

/-- Settles O38: the four rows of R200 are the rules of the four operations whose event no other operation has. -/
theorem errorsFollowTaxonomy : Obligations.ErrorsFollowTaxonomy := by
  intro s t x h
  obtain ⟨hresync, -⟩ := h2ResyncReturnsToHunt
  obtain ⟨hunt, huntNext⟩ := error_row soleOperation_hunt h fun d => (h1DiscardKeepsHunting s x d).2
  obtain ⟨magic2, magic2Next⟩ := error_row soleOperation_badMagic2 h fun d => (hresync s x d).2
  obtain ⟨len, lenNext⟩ := error_row soleOperation_badLen h fun d => (lenLoBadRejectsLength s x d).2
  obtain ⟨csum, csumNext⟩ := error_row soleOperation_badCsum h fun d => (csumLoBadDiscardsFrame s x d).2
  exact ⟨hunt, magic2, len, csum, huntNext, magic2Next, lenNext, csumNext⟩

end Sys2Proof.Proofs
end

section
/-! PROOFS. Reset and hazards (70_reset_and_hazards.md) on whole streams: how long the Reading holds (R240), idle steps
(R242), the length field (R237), and resynchronization after garbage (R235). -/

namespace Sys2Proof.Proofs

open Sys2Proof Sys2Proof.Machine Sys2Proof.Laws

variable {s t u : State} {x : StepInput} {i : Instr} {b : Byte} {xs : List StepInput} {g p : List Byte}

/-! ### The Reading between frames (R240) -/

theorem soleOperation_frameOk : SoleOperation .frameOk .csumLoOk := fun i => by cases i <;> simp [eventOf]

/-- A step without reset that leaves another event than 6 leaves the Reading (R28). -/
theorem rd_eq_of_event_ne_frameOk (h : stepWith x s = .next t) (hr : x.rst = false)
    (he : t.event ≠ Event.frameOk.code) : t.rd = s.rd := by
  obtain ⟨-, -, hkeep⟩ := readingUpdatesAtOnce s t x h
  exact hkeep hr fun d hop => he ((event_eq_code_iff soleOperation_frameOk h).2 ⟨d, hop⟩)

/-- Settles O46, by induction on the stream. -/
theorem readingHoldsBetweenFrames : Obligations.ReadingHoldsBetweenFrames := by
  intro xs s t h hr he
  induction xs generalizing s with
  | nil => exact next_inj.1 h ▸ rfl
  | cons x xs ih =>
    obtain ⟨u, hu, hrun⟩ := exists_stepWith_of_runWith_cons h
    obtain ⟨hx, hxs⟩ := List.forall_mem_cons.1 hr
    rw [events_cons s xs hu, List.mem_cons, not_or] at he
    obtain ⟨hevent, hevents⟩ := he
    exact (ih u hrun hxs hevents).trans (rd_eq_of_event_ne_frameOk hu hx (Ne.symm hevent))

/-! ### Idle steps (R242) -/

/-- The two states differ in `status` and `event` at most. -/
def SameButFlags (s t : State) : Prop := t = { s with status := t.status, event := t.event }

theorem SameButFlags.refl (s : State) : SameButFlags s s := rfl

theorem SameButFlags.symm (h : SameButFlags s t) : SameButFlags t s := by
  rw [SameButFlags, h]

theorem SameButFlags.idle (h : SameButFlags s t) : SameButFlags (s.setFlags waiting .idle) t := h

/-- From states that differ in the flags alone, a step goes to one state (R27). -/
theorem stepWith_iff_of_sameButFlags (h : SameButFlags s t) : stepWith x s = .next u ↔ stepWith x t = .next u := by
  have transfer {v w : State} (h : SameButFlags v w) (hv : stepWith x v = .next u) : stepWith x w = .next u := by
    rw [h]
    exact flagsDoNotInfluenceStep v u x w.status w.event hv
  exact ⟨transfer h, transfer h.symm⟩

/-- The operation for given inputs does not depend on the flags (R27). -/
theorem operationFor_eq_of_sameButFlags (h : SameButFlags s t) : t.operationFor x = s.operationFor x := by
  rw [h]
  rfl

/-- Both outcomes are next states that differ in the flags at most, or neither is a next state. -/
def SameOutcomeButFlags (a b : Result) : Prop :=
  (∀ t, a = .next t → ∃ u, b = .next u ∧ SameButFlags t u) ∧ (∀ u, b = .next u → ∃ t, a = .next t ∧ SameButFlags t u)

theorem sameOutcomeButFlags_next (h : SameButFlags s t) : SameOutcomeButFlags (.next s) (.next t) :=
  ⟨fun _ hv => ⟨t, rfl, next_inj.1 hv ▸ h⟩, fun _ hv => ⟨s, rfl, next_inj.1 hv ▸ h⟩⟩

theorem sameOutcomeButFlags_of_stops {a b : Result} (ha : ∀ t, a ≠ .next t) (hb : ∀ t, b ≠ .next t) :
    SameOutcomeButFlags a b :=
  ⟨fun t h => absurd h (ha t), fun t h => absurd h (hb t)⟩

theorem runWith_cons_ne_next (h : ∀ u, stepWith x s ≠ .next u) (xs : List StepInput) (t : State) :
    runWith (x :: xs) s ≠ .next t := fun hrun =>
  have ⟨u, hu, _⟩ := exists_stepWith_of_runWith_cons hrun
  h u hu

/-- The operations of a stream's completing steps, each with the event it leaves. -/
def trace (xs : List StepInput) (s : State) : List (Instr × BitVec 3) := (operations xs s).zip (events xs s)

theorem trace_cons (hop : s.operationFor x = .ok i) (h : stepWith x s = .next t) (xs : List StepInput) :
    trace (x :: xs) s = (i, t.event) :: trace xs t := by
  rw [trace, operations_cons s xs hop h, events_cons s xs h, List.zip_cons_cons, trace]

theorem trace_of_stop (h : ∀ t, stepWith x s ≠ .next t) (xs : List StepInput) : trace (x :: xs) s = [] := by
  rw [trace, events]
  cases hs : stepWith x s with
  | next t => exact absurd hs (h t)
  | fault f => exact List.zip_nil_right
  | refused r => exact List.zip_nil_right

theorem operation_eq_idle_iff_isIdle (hop : s.operationFor x = .ok i) : i = .idle ↔ x.isIdle = true := by
  have hi : s.operationFor x = .ok .idle ↔ i = .idle := by rw [hop, Except.ok.injEq]
  rw [← hi, operationFor_eq_idle_iff]
  simp [StepInput.isIdle]

/-- The invariant of R242: from states that differ in the flags alone, a stream and its idle-free version stay in such
states, an idle step moving the first run only and any other step taking both runs to one state. -/
theorem idleFree_stream_agrees (xs : List StepInput) (h : SameButFlags s t) :
    (trace xs s).filter (fun e => e.1 != .idle) = trace (xs.filter fun x => !x.isIdle) t ∧
      SameOutcomeButFlags (runWith xs s) (runWith (xs.filter fun x => !x.isIdle) t) := by
  induction xs generalizing s t with
  | nil => exact ⟨rfl, sameOutcomeButFlags_next h⟩
  | cons x xs ih =>
    obtain ⟨i, hop⟩ : ∃ i, s.operationFor x = .ok i := ⟨_, operationFor_eq s x⟩
    have hidle := operation_eq_idle_iff_isIdle hop
    cases hx : x.isIdle with
    | true =>
      obtain rfl : i = .idle := hidle.2 hx
      have hs : stepWith x s = .next (s.setFlags waiting .idle) := stepWith_of_operationFor s hop
      rw [trace_cons hop hs, runWith_cons s xs hs, List.filter_cons_of_neg (by simp),
        List.filter_cons_of_neg (by simp [hx])]
      exact ih h.idle
    | false =>
      have hi : i ≠ .idle := fun hi => Bool.false_ne_true (hx.symm.trans (hidle.1 hi))
      rw [List.filter_cons_of_pos (by simp [hx])]
      by_cases hstop : ∀ u, stepWith x s ≠ .next u
      · have hstop' (u : State) : stepWith x t ≠ .next u := fun ht =>
          hstop u ((stepWith_iff_of_sameButFlags h).2 ht)
        rw [trace_of_stop hstop, trace_of_stop hstop']
        exact ⟨rfl, sameOutcomeButFlags_of_stops (runWith_cons_ne_next hstop xs) (runWith_cons_ne_next hstop' _)⟩
      · obtain ⟨u, hs⟩ := not_forall_not.1 hstop
        have ht : stepWith x t = .next u := (stepWith_iff_of_sameButFlags h).1 hs
        have hop' : t.operationFor x = .ok i := (operationFor_eq_of_sameButFlags h).trans hop
        obtain ⟨htrace, hrun⟩ := ih (SameButFlags.refl u)
        rw [trace_cons hop hs, trace_cons hop' ht, runWith_cons s xs hs, runWith_cons t _ ht,
          List.filter_cons_of_pos (by simpa using hi), htrace]
        exact ⟨rfl, hrun⟩

/-- Settles O45: the invariant from one state. -/
theorem idleStepsChangeOnlyFlags : Obligations.IdleStepsChangeOnlyFlags := by
  rintro s xs _ rfl
  exact idleFree_stream_agrees xs (SameButFlags.refl s)

/-! ### The length field (R237) -/

/-- The operations of a stream of bytes, one byte at a time. -/
theorem operations_feed_cons (hop : s.operationFor (.byte b) = .ok i) (h : exec i s = .next t) (bs : List Byte) :
    operations (feed (b :: bs)) s = i :: operations (feed bs) t :=
  operations_cons s _ hop ((stepWith_of_operationFor s hop).trans h)

/-- The state after the bytes `42 4D b` of a frame begun in `s`. -/
def afterHeader (s : State) (b : Byte) : State :=
  { s with
    index := 3, frameLen := bigEndian b 0x00, calcSum := 0x008F + zext16 b, status := waiting,
    event := Event.accept.code }

theorem afterHeader_length (s : State) (b d : Byte) : lengthWith (afterHeader s b).frameLen d = bigEndian b d :=
  congrArg (bigEndian · d) (highByte_bigEndian b 0x00)

theorem runWith_header_eq_afterHeader (h0 : s.index = 0) (b : Byte) :
    runWith (feed [Config.magic0, Config.magic1, b]) s = .next (afterHeader s b) := by
  have hsum : byteSum [Config.magic0, Config.magic1, b] = 0x008F + zext16 b := byteSum_append [0x42, 0x4D] b
  rw [runWith_header h0, hsum, afterHeader]

theorem operations_header (h0 : s.index = 0) (b : Byte) (bs : List Byte) :
    operations (feed (Config.magic0 :: Config.magic1 :: b :: bs)) s =
      .h1Match :: .h2Match :: .lenHi b :: operations (feed bs) (afterHeader s b) := by
  have hmatch1 : s.operationFor (.byte Config.magic0) = .ok .h1Match := operationFor_eq_h1Match_iff.2 ⟨rfl, h0⟩
  have hmatch2 (t : State) (h1 : t.index = 1) : t.operationFor (.byte Config.magic1) = .ok .h2Match :=
    operationFor_eq_h2Match_iff.2 ⟨rfl, h1⟩
  have hlenHi (t : State) (h2 : t.index = 2) : t.operationFor (.byte b) = .ok (.lenHi b) :=
    operationFor_eq_lenHi_iff.2 ⟨rfl, h2⟩
  rw [operations_feed_cons hmatch1 rfl, operations_feed_cons (hmatch2 _ rfl) rfl,
    operations_feed_cons (hlenHi _ rfl) rfl]
  rfl

/-- Settles O44: after `42 4D h` the low byte decides by the whole 16-bit value. -/
theorem lengthFieldDecidesVariant : Obligations.LengthFieldDecidesVariant := by
  intro s h l h0
  have hsplit : feed [0x42, 0x4D, h, l] = feed [Config.magic0, Config.magic1, h] ++ feed [l] := rfl
  have hlen := afterHeader_length s h l
  rw [hsplit, runWith_append s _ _ (runWith_header_eq_afterHeader h0 h)]
  refine ⟨fun hvalid => ?_, fun hinvalid => ?_⟩
  · exact runWith_cons _ [] (stepWith_lenLow ((phase_lenLow _).2 rfl) hlen ((validLen_iff _).2 hvalid))
  · have hop : (afterHeader s h).operationFor (.byte l) = .ok (.lenLoBad l) :=
      operationFor_eq_lenLoBad_iff.2 ⟨rfl, rfl, mt (validLen_iff _).1 (hlen ▸ hinvalid)⟩
    have hstep := stepWith_of_operationFor _ hop
    rw [← feed_append]
    constructor
    · refine (operations_header h0 h [l]).trans ?_
      exact congrArg (.h1Match :: .h2Match :: .lenHi h :: ·) (operations_feed_cons hop rfl [])
    · refine (runWith_cons _ [] hstep).trans ?_
      rw [hlen]
      rfl

/-! ### Garbage before a frame (R235) -/

/-- No `0x42` directly before a `0x4D`. -/
def HeaderFree (g : List Byte) : Prop := ∀ n : Nat, ¬(g[n]? = some 0x42 ∧ g[n + 1]? = some 0x4D)

theorem headerFree_of_append (h : HeaderFree (g ++ p)) : HeaderFree g := by
  intro n ⟨h1, h2⟩
  have extend {k : Nat} {c : Byte} (hk : g[k]? = some c) : (g ++ p)[k]? = some c :=
    (List.getElem?_append_left (List.getElem?_eq_some_iff.1 hk).1).trans hk
  exact h n ⟨extend h1, extend h2⟩

/-- How many bytes `0x42` the list ends in. -/
def trailingRun (g : List Byte) : Nat := (g.reverse.takeWhile (· == 0x42)).length

theorem trailingRun_append (g : List Byte) (b : Byte) :
    trailingRun (g ++ [b]) = if b = 0x42 then trailingRun g + 1 else 0 := by
  rw [trailingRun, List.reverse_append, List.reverse_singleton, List.singleton_append, List.takeWhile_cons]
  simp only [beq_iff_eq]
  split <;> rfl

/-- After garbage that ends in `0x42` comes no `0x4D`. -/
theorem ne_magic1_of_headerFree (h : HeaderFree (g ++ [b])) (hrun : trailingRun g ≠ 0) : b ≠ Config.magic1 := by
  induction g using List.reverseRecOn with
  | nil => exact absurd rfl hrun
  | append_singleton g c _ =>
    have hc : c = 0x42 := by
      by_contra hc
      exact hrun ((trailingRun_append g c).trans (if_neg hc))
    rintro rfl
    exact h g.length (by simp [hc, Config.magic1])

/-- The second state has the registers of the first that hold a frame's bytes and what is decoded from them. -/
structure SameCapture (s t : State) : Prop where
  rd : t.rd = s.rd
  buf : t.buf = s.buf
  frameLen : t.frameLen = s.frameLen
  rxCsum : t.rxCsum = s.rxCsum

theorem SameCapture.trans (h : SameCapture s t) (h' : SameCapture t u) : SameCapture s u :=
  ⟨h'.rd.trans h.rd, h'.buf.trans h.buf, h'.frameLen.trans h.frameLen, h'.rxCsum.trans h.rxCsum⟩

/-- A step that hunts for a header, R111, R112 or R114: from `index` 0 the byte `0x42` goes to `index` 1, and everything
else goes to or stays at 0. -/
theorem stepWith_hunting (h : s.index = 0 ∨ s.index = 1 ∧ b ≠ Config.magic1) :
    ∃ t, stepWith (.byte b) s = .next t ∧ t.index = (if s.index = 0 ∧ b = 0x42 then 1 else 0) ∧
      SameCapture s t ∧ t.event ≠ Event.frameOk.code := by
  have hevent {e : Event} (he : e ≠ .frameOk) : e.code ≠ Event.frameOk.code := event_code_injective.ne he
  obtain h0 | ⟨h1, hb⟩ := h
  · by_cases hb : b = Config.magic0
    · subst hb
      exact ⟨_, stepWith_of_operationFor s (operationFor_eq_h1Match_iff.2 ⟨rfl, h0⟩), (if_pos ⟨h0, rfl⟩).symm,
        ⟨rfl, rfl, rfl, rfl⟩, hevent (e := .accept) nofun⟩
    · exact ⟨_, stepWith_of_operationFor s (operationFor_eq_h1Discard_iff.2 ⟨rfl, h0, hb⟩),
        h0.trans (if_neg fun h => hb h.2).symm, ⟨rfl, rfl, rfl, rfl⟩, hevent (e := .hunt) nofun⟩
  · exact ⟨_, stepWith_of_operationFor s (operationFor_eq_h2Resync_iff.2 ⟨rfl, h1, hb⟩),
      (if_neg fun h => absurd (h1.symm.trans h.1) (by decide)).symm, ⟨rfl, rfl, rfl, rfl⟩,
      hevent (e := .badMagic2) nofun⟩

/-- Garbage, by induction on the bytes consumed so far: the parity of the trailing run of `0x42` is the position. -/
theorem runWith_garbage (h0 : s.index = 0) (hg : HeaderFree g) :
    ∃ t, runWith (feed g) s = .next t ∧ t.index = (if trailingRun g % 2 = 1 then 1 else 0) ∧
      SameCapture s t ∧ Event.frameOk.code ∉ events (feed g) s := by
  induction g using List.reverseRecOn with
  | nil => exact ⟨s, rfl, h0, ⟨rfl, rfl, rfl, rfl⟩, List.not_mem_nil⟩
  | append_singleton g b ih =>
    obtain ⟨t, hrun, hindex, hkept, hevents⟩ := ih (headerFree_of_append hg)
    have hhunt : t.index = 0 ∨ t.index = 1 ∧ b ≠ Config.magic1 := by
      split at hindex
      next hodd => exact .inr ⟨hindex, ne_magic1_of_headerFree hg fun h => by simp [h] at hodd⟩
      next => exact .inl hindex
    obtain ⟨u, hu, hindex', hkept', hevent⟩ := stepWith_hunting hhunt
    rw [feed_append, runWith_append s _ _ hrun, events_append s _ _ hrun]
    refine ⟨u, runWith_cons t [] hu, ?_, hkept.trans hkept', ?_⟩
    · rw [hindex', trailingRun_append]
      by_cases hb : b = 0x42
      · have hflip : t.index = 0 ↔ (trailingRun g + 1) % 2 = 1 := by
          rw [hindex]
          split <;> simp <;> omega
        simp only [hflip, hb, and_true, if_true]
      · rw [if_neg fun h => hb h.2, if_neg hb]
        rfl
    · rw [feed_cons, events_cons t _ hu]
      simp [hevents, hevent.symm, events]

/-! ### A frame passes once -/

/-- A byte advances `index` by at most 1, and the byte that makes a frame pass, its 24th or later, sets it to 0. -/
theorem index_of_stepWith_byte (h : stepWith (.byte b) s = .next t) :
    t.index.toNat ≤ s.index.toNat + 1 ∧
      (t.event = Event.frameOk.code → 23 ≤ s.index.toNat ∧ t.index.toNat = 0) := by
  refine ⟨?_, fun he => ?_⟩
  · obtain hadvance | hzero := (indexAdvancesOrClears s t b h).1
    · exact hadvance.le
    · simp [hzero]
  · obtain ⟨d, hop⟩ := (event_eq_code_iff soleOperation_frameOk h).1 he
    obtain ⟨hv, hlast⟩ := atPosition_of_operationFor hop
    have := toNat_of_validLen hv
    have hok := (status_of_stepWith h).1 ⟨d, hop⟩
    exact ⟨by omega, congrArg BitVec.toNat (index_eq_zero_of_status_ok h hok)⟩

/-- Each frame that passes takes at least 24 bytes of a stream, `index` counting those of the frame begun. -/
theorem frameOk_count_le {bs : List Byte} (h : runWith (feed bs) s = .next t) :
    24 * (events (feed bs) s).count Event.frameOk.code + t.index.toNat ≤ s.index.toNat + bs.length := by
  induction bs generalizing s with
  | nil => exact next_inj.1 h ▸ (by simp [events])
  | cons b bs ih =>
    obtain ⟨u, hu, hrun⟩ := exists_stepWith_of_runWith_cons h
    obtain ⟨hle, hpass⟩ := index_of_stepWith_byte hu
    have hrest := ih hrun
    rw [feed_cons, events_cons s _ hu, List.count_cons, List.length_cons]
    by_cases he : u.event = Event.frameOk.code
    · obtain ⟨hfrom, hto⟩ := hpass he
      simp only [he, beq_self_eq_true, if_true]
      omega
    · simp only [beq_iff_eq, if_neg he]
      omega

/-- The event after a stream is among its events. -/
theorem event_mem_events (h : runWith (x :: xs) s = .next t) : t.event ∈ events (x :: xs) s := by
  induction xs generalizing s x with
  | nil =>
    obtain ⟨u, hu, hrun⟩ := exists_stepWith_of_runWith_cons h
    rw [events_cons s _ hu, next_inj.1 hrun]
    exact List.mem_cons_self
  | cons y ys ih =>
    obtain ⟨u, hu, hrun⟩ := exists_stepWith_of_runWith_cons h
    rw [events_cons s _ hu]
    exact List.mem_cons_of_mem _ (ih hrun)

theorem length_frame (p : List Byte) : (frame p).length = p.length + 6 := by
  simp [frame, frameWith, frameBody]

/-- A valid frame from `index` 0 passes, once: two would need 48 bytes. -/
theorem runWith_frame (h0 : s.index = 0) (hp : p.length = 18 ∨ p.length = 26) :
    ∃ t, runWith (feed (frame p)) s = .next t ∧ t.status = ok ∧ t.rd = decodeReading (captured s.buf p) ∧
      (events (feed (frame p)) s).count Event.frameOk.code = 1 := by
  have hrun : runWith (feed (frame p)) s = _ := frameAcceptedIffSumMatches s p (byteSum (frameBody p)) h0 hp
  simp only [if_true] at hrun
  refine ⟨_, hrun, rfl, rfl, Nat.le_antisymm ?_ ?_⟩
  · have hcost := frameOk_count_le hrun
    have hlen := length_frame p
    have hstart : s.index.toNat = 0 := congrArg BitVec.toNat h0
    omega
  · exact List.count_pos_iff.2 (event_mem_events hrun)

/-- Settles O43: the garbage by its trailing run, the frame after it from the `index` the garbage leaves. -/
theorem garbageThenFrame : Obligations.GarbageThenFrame := by
  refine ⟨fun s g h0 hg => ?_, fun s g p h0 hg heven hp => ?_, fun s p h1 => ?_⟩
  · obtain ⟨t, hrun, hindex, hkept, -⟩ := runWith_garbage h0 hg
    exact ⟨t, hrun, hindex, hkept.rd, hkept.buf, hkept.frameLen, hkept.rxCsum⟩
  · obtain ⟨t, hrun, hindex, hkept, hevents⟩ := runWith_garbage h0 hg
    have ht0 : t.index = 0 := hindex.trans (if_neg (by rw [trailingRun, heven]; decide))
    obtain ⟨u, hframe, hok, hrd, hcount⟩ := runWith_frame ht0 hp
    rw [feed_append, runWith_append s _ _ hrun, events_append s _ _ hrun, List.count_append]
    refine ⟨u, hframe, hok, hkept.buf ▸ hrd, ?_⟩
    exact congrArg₂ (· + ·) (List.count_eq_zero.2 hevents) hcount
  · have hresync : s.operationFor (.byte 0x42) = .ok (.h2Resync 0x42) :=
      operationFor_eq_h2Resync_iff.2 ⟨rfl, h1, by decide⟩
    have hdiscard (t : State) (h0 : t.index = 0) : t.operationFor (.byte 0x4D) = .ok (.h1Discard 0x4D) :=
      operationFor_eq_h1Discard_iff.2 ⟨rfl, h0, by decide⟩
    have hsplit : frame p = 0x42 :: 0x4D :: (frame p).drop 2 := rfl
    rw [hsplit, operations_feed_cons hresync rfl, operations_feed_cons (hdiscard _ rfl) rfl]
    rfl

end Sys2Proof.Proofs
end
